-- ==== Sys2Proof/Word.lean ====
section
/-! DEFINITION. The machine word, the byte and the register number (00_scope.md R9, R12, R13; 10_state.md R21). -/

namespace Sys2Proof

/-- "A 16-bit unsigned value; the universal unit of storage, instruction encoding, and register content"
(00_scope.md R9, R17). Addition on it is modulo 2^16 (R13). -/
abbrev Word := BitVec 16

/-- What one port operation moves: 8 bits (00_scope.md R6). -/
abbrev Byte := BitVec 8

/-- A general register's number. An instruction names one of the 8 by a 3-bit selector and no selector is invalid
(10_state.md R21). -/
abbrev Reg := Fin 8

end Sys2Proof
end

