-- ==== Sys2Proof/Syntax.lean ====
section
/-! DEFINITION. The instructions: one constructor for each of the 26 rows of spec/opcode_table.json
(30_encoding.md R96), with the operands the row's format names (R83, R84). -/

namespace Sys2Proof

/-- An instruction. Bits that a form ignores (30_encoding.md R98) are no part of it. -/
inductive Instr where
  /-- BR, mask `n z p` and PCoffset9 (41_control.md R120). -/
  | br (nzp : BitVec 3) (off : BitVec 9)
  /-- ADD, register mode (40_alu.md R110). -/
  | addReg (dr sr1 sr2 : Reg)
  /-- ADD, immediate mode (40_alu.md R111). -/
  | addImm (dr sr1 : Reg) (imm : BitVec 5)
  /-- LD (42_load.md R130). -/
  | ld (dr : Reg) (off : BitVec 9)
  /-- ST (43_store.md R140). -/
  | st (sr : Reg) (off : BitVec 9)
  /-- JSRR (41_control.md R124). -/
  | jsrr (base : Reg)
  /-- JSR (41_control.md R123). -/
  | jsr (off : BitVec 11)
  /-- AND, register mode (40_alu.md R112). -/
  | andReg (dr sr1 sr2 : Reg)
  /-- AND, immediate mode (40_alu.md R113). -/
  | andImm (dr sr1 : Reg) (imm : BitVec 5)
  /-- LDR (42_load.md R132). -/
  | ldr (dr base : Reg) (off : BitVec 6)
  /-- STR (43_store.md R142). -/
  | str (sr base : Reg) (off : BitVec 6)
  /-- RTI, fatal (45_reserved.md R170). -/
  | rti
  /-- NOT (40_alu.md R114). -/
  | not (dr sr : Reg)
  /-- LDI (42_load.md R131). -/
  | ldi (dr : Reg) (off : BitVec 9)
  /-- STI (43_store.md R141). -/
  | sti (sr : Reg) (off : BitVec 9)
  /-- JMP (41_control.md R121). -/
  | jmp (base : Reg)
  /-- RET: JMP with BaseR = 7 (41_control.md R122). -/
  | ret
  /-- RES, fatal (45_reserved.md R171). -/
  | res
  /-- LEA (42_load.md R133). -/
  | lea (dr : Reg) (off : BitVec 9)
  /-- TRAP by its vector (44_trap.md R150, R158). -/
  | trap (vect : BitVec 8)
  /-- GETC, TRAP x20 (44_trap.md R152). -/
  | getc
  /-- OUT, TRAP x21 (44_trap.md R153). -/
  | out
  /-- PUTS, TRAP x22 (44_trap.md R154). -/
  | puts
  /-- IN, TRAP x23 (44_trap.md R155). -/
  | inChar
  /-- PUTSP, TRAP x24 (44_trap.md R156). -/
  | putsp
  /-- HALT, TRAP x25 (44_trap.md R157). -/
  | halt
  deriving DecidableEq, Repr

end Sys2Proof
end

