-- ==== Sys2Proof/WellFormed.lean ====
section
/-! DEFINITION. The instructions that are the decoding of a word. Two rows of the table refine another: RET refines
JMP, and the six services refine TRAP (30_encoding.md R96), so a JMP with BaseR 7 and a TRAP with a service's vector
are written by the finer constructor. -/

namespace Sys2Proof

/-- The six defined trap vectors, 0x20 to 0x25 (30_encoding.md R101). -/
def definedVectors : List (BitVec 8) := [0x20, 0x21, 0x22, 0x23, 0x24, 0x25]

/-- The check that an instruction is the decoding of some word (log entry 9). -/
def Instr.wf : Instr → Bool
  | .jmp base => base != 7
  | .trap vect => !definedVectors.contains vect
  | .br _ _ | .addReg _ _ _ | .addImm _ _ _ | .ld _ _ | .st _ _ | .jsrr _ | .jsr _ => true
  | .andReg _ _ _ | .andImm _ _ _ | .ldr _ _ _ | .str _ _ _ | .rti | .not _ _ | .ldi _ _ => true
  | .sti _ _ | .ret | .res | .lea _ _ => true
  | .getc | .out | .puts | .inChar | .putsp | .halt => true

/-- `Instr.wf` as a proposition. -/
abbrev Instr.WellFormed (i : Instr) : Prop := i.wf = true

end Sys2Proof
end

