-- ==== Sys2Proof/Decode.lean ====
section
/-! DEFINITION. The decoder, total on all 65536 words (30_encoding.md R82), the encoder written from the same formats
(R84), the decode table (R96) and the ignored bits (R98). -/

namespace Sys2Proof

/-- The 3-bit register selector whose low bit is `lo` (30_encoding.md R83). -/
def regField (w : Word) (lo : Nat) : Reg := (w.extractLsb' lo 3).toFin

/-- A word of opcode 1100: RET if BaseR is 7, else JMP (30_encoding.md R96). -/
def decodeJmp (base : Reg) : Instr :=
  if base = 7 then .ret else .jmp base

/-- A word of opcode 1111: the service its vector names, else TRAP (30_encoding.md R96, R101). -/
def decodeTrap (vect : BitVec 8) : Instr :=
  if vect = 0x20 then .getc
  else if vect = 0x21 then .out
  else if vect = 0x22 then .puts
  else if vect = 0x23 then .inChar
  else if vect = 0x24 then .putsp
  else if vect = 0x25 then .halt
  else .trap vect

/-- The instruction a word stands for, by its opcode `ir[15:12]` (30_encoding.md R81, R95; 70_reset_and_hazards.md
R215), refined by `ir[5]` for ADD and AND (R85), `ir[11]` for JSR and JSRR (R89) and `ir[7:0]` for TRAP (R88). The last
arm is opcode 1111. -/
def decode (w : Word) : Instr :=
  match (w.extractLsb' 12 4).toNat with
  | 0 => .br (w.extractLsb' 9 3) (w.extractLsb' 0 9)
  | 1 =>
    if w.getLsbD 5 then .addImm (regField w 9) (regField w 6) (w.extractLsb' 0 5)
    else .addReg (regField w 9) (regField w 6) (regField w 0)
  | 2 => .ld (regField w 9) (w.extractLsb' 0 9)
  | 3 => .st (regField w 9) (w.extractLsb' 0 9)
  | 4 => if w.getLsbD 11 then .jsr (w.extractLsb' 0 11) else .jsrr (regField w 6)
  | 5 =>
    if w.getLsbD 5 then .andImm (regField w 9) (regField w 6) (w.extractLsb' 0 5)
    else .andReg (regField w 9) (regField w 6) (regField w 0)
  | 6 => .ldr (regField w 9) (regField w 6) (w.extractLsb' 0 6)
  | 7 => .str (regField w 9) (regField w 6) (w.extractLsb' 0 6)
  | 8 => .rti
  | 9 => .not (regField w 9) (regField w 6)
  | 10 => .ldi (regField w 9) (w.extractLsb' 0 9)
  | 11 => .sti (regField w 9) (w.extractLsb' 0 9)
  | 12 => decodeJmp (regField w 6)
  | 13 => .res
  | 14 => .lea (regField w 9) (w.extractLsb' 0 9)
  | _ => decodeTrap (w.extractLsb' 0 8)

/-- The word of a table row whose bits are `w`: an instruction is one 16-bit word (30_encoding.md R80), bits above
`nbits` are 0. -/
def tableWord (nbits w : Nat) : Word := BitVec.ofNat 16 (w % 2 ^ nbits)

/-- The instruction the decoder reads from a row of spec/opcode_table.json whose bits are `w`. No instruction is longer
than one word (30_encoding.md R80, R100). -/
def decodeTableWord (nbits w : Nat) : Option Instr :=
  if nbits ≤ 16 then some (decode (tableWord nbits w)) else none

/-- A register number as its 3-bit selector. -/
def regBits (r : Reg) : BitVec 3 := BitVec.ofFin r

/-- The word of a TRAP with vector `vect`; bits 11:8 are ignored and conventionally 0000 (30_encoding.md R84, R98). -/
def trapWord (vect : BitVec 8) : Word := 0b1111#4 ++ 0b0000#4 ++ vect

/-- The word of an instruction, by its format (30_encoding.md R84), ignored bits at their conventional value (R98; RES
has none, zeros: log entry 10). -/
def encode : Instr → Word
  | .br nzp off => 0b0000#4 ++ nzp ++ off
  | .addReg dr sr1 sr2 => 0b0001#4 ++ regBits dr ++ regBits sr1 ++ 0b000#3 ++ regBits sr2
  | .addImm dr sr1 imm => 0b0001#4 ++ regBits dr ++ regBits sr1 ++ 0b1#1 ++ imm
  | .ld dr off => 0b0010#4 ++ regBits dr ++ off
  | .st sr off => 0b0011#4 ++ regBits sr ++ off
  | .jsrr base => 0b01000#5 ++ 0b00#2 ++ regBits base ++ 0b000000#6
  | .jsr off => 0b01001#5 ++ off
  | .andReg dr sr1 sr2 => 0b0101#4 ++ regBits dr ++ regBits sr1 ++ 0b000#3 ++ regBits sr2
  | .andImm dr sr1 imm => 0b0101#4 ++ regBits dr ++ regBits sr1 ++ 0b1#1 ++ imm
  | .ldr dr base off => 0b0110#4 ++ regBits dr ++ regBits base ++ off
  | .str sr base off => 0b0111#4 ++ regBits sr ++ regBits base ++ off
  | .rti => 0b1000000000000000#16
  | .not dr sr => 0b1001#4 ++ regBits dr ++ regBits sr ++ 0b111111#6
  | .ldi dr off => 0b1010#4 ++ regBits dr ++ off
  | .sti sr off => 0b1011#4 ++ regBits sr ++ off
  | .jmp base => 0b1100#4 ++ 0b000#3 ++ regBits base ++ 0b000000#6
  | .ret => 0b1100#4 ++ 0b000#3 ++ 0b111#3 ++ 0b000000#6
  | .res => 0b1101000000000000#16
  | .lea dr off => 0b1110#4 ++ regBits dr ++ off
  | .trap vect => trapWord vect
  | .getc => trapWord 0x20
  | .out => trapWord 0x21
  | .puts => trapWord 0x22
  | .inChar => trapWord 0x23
  | .putsp => trapWord 0x24
  | .halt => trapWord 0x25

/-- A row of the decode table: a word `w` selects it when `w &&& mask = value` (30_encoding.md R96). -/
structure Row where
  mask : Word
  value : Word
  deriving DecidableEq, Repr

/-- The row of the decode table that an instruction's words select (30_encoding.md R96). -/
def rowOf : Instr → Row
  | .br _ _ => ⟨0xF000, 0x0000⟩
  | .addReg _ _ _ => ⟨0xF020, 0x1000⟩
  | .addImm _ _ _ => ⟨0xF020, 0x1020⟩
  | .ld _ _ => ⟨0xF000, 0x2000⟩
  | .st _ _ => ⟨0xF000, 0x3000⟩
  | .jsrr _ => ⟨0xF800, 0x4000⟩
  | .jsr _ => ⟨0xF800, 0x4800⟩
  | .andReg _ _ _ => ⟨0xF020, 0x5000⟩
  | .andImm _ _ _ => ⟨0xF020, 0x5020⟩
  | .ldr _ _ _ => ⟨0xF000, 0x6000⟩
  | .str _ _ _ => ⟨0xF000, 0x7000⟩
  | .rti => ⟨0xF000, 0x8000⟩
  | .not _ _ => ⟨0xF000, 0x9000⟩
  | .ldi _ _ => ⟨0xF000, 0xA000⟩
  | .sti _ _ => ⟨0xF000, 0xB000⟩
  | .jmp _ => ⟨0xF000, 0xC000⟩
  | .ret => ⟨0xF1C0, 0xC1C0⟩
  | .res => ⟨0xF000, 0xD000⟩
  | .lea _ _ => ⟨0xF000, 0xE000⟩
  | .trap _ => ⟨0xF000, 0xF000⟩
  | .getc => ⟨0xF0FF, 0xF020⟩
  | .out => ⟨0xF0FF, 0xF021⟩
  | .puts => ⟨0xF0FF, 0xF022⟩
  | .inChar => ⟨0xF0FF, 0xF023⟩
  | .putsp => ⟨0xF0FF, 0xF024⟩
  | .halt => ⟨0xF0FF, 0xF025⟩

/-- The bits of an instruction's word that it ignores (30_encoding.md R98). -/
def ignoredBits : Instr → Word
  | .addReg _ _ _ | .andReg _ _ _ => 0x0018
  | .not _ _ => 0x003F
  | .jmp _ | .ret => 0x0E3F
  | .jsrr _ => 0x063F
  | .trap _ | .getc | .out | .puts | .inChar | .putsp | .halt => 0x0F00
  | .rti | .res => 0x0FFF
  | .br _ _ | .addImm _ _ _ | .ld _ _ | .st _ _ | .jsr _ | .andImm _ _ _ => 0x0000
  | .ldr _ _ _ | .str _ _ _ | .ldi _ _ | .sti _ _ | .lea _ _ => 0x0000

end Sys2Proof
end

