-- ==== Sys2Proof/Config.lean ====
section
/-! DEFINITION. What the spec fixes of this machine (00_scope.md R9) and the parameters it leaves open, each with the
default the spec chose (00_scope.md R10). -/

namespace Sys2Proof

/-- The condition flag: "exactly one member active at any time" (10_state.md R29). -/
inductive Cond where
  | negative
  | zero
  | positive
  deriving DecidableEq, Repr

/-- `UNKNOWN_TRAP_POLICY` (00_scope.md R10; 44_trap.md R158). -/
inductive TrapPolicy where
  | fatal
  | noop
  deriving DecidableEq, Repr

/-- The word-addressed store, sparse: the listed cells, each an address and its word. An address that is not listed
reads as `Config.unlistedCell`. Its canonical form is `Memory.wf` (Machine/Ops.lean). DESIGN CHOICE (log entry 2): the
cell is the spec's smallest addressable unit, a word (20_memory.md R50, R51). -/
abbrev Memory := List (Nat × Word)

/-- The parameters of 00_scope.md R10 that instructions read while the engine runs. -/
structure RunParams where
  /-- `UNKNOWN_TRAP_POLICY` (R158). -/
  unknownTrapPolicy : TrapPolicy
  /-- `IN_PROMPT` (R155). -/
  inPrompt : List Byte
  /-- `HALT_NOTICE` (R157). -/
  haltNotice : List Byte
  deriving DecidableEq, Repr

/-- All seven parameters of 00_scope.md R10: the four that reset reads and the three of `RunParams`. -/
structure Params where
  /-- `PC_START`. -/
  pcStart : Word
  /-- `INIT_COND`. -/
  initCond : Cond
  /-- `INIT_REGS`. -/
  initRegs : Vector Word 8
  /-- `INIT_MEM`. -/
  initMem : Memory
  /-- The parameters read while running. -/
  run : RunParams
  deriving DecidableEq, Repr

namespace Config

/-- The keyboard status register's address (00_scope.md R9). -/
def kbsr : Word := 0xFE00

/-- The keyboard data register's address (00_scope.md R9). -/
def kbdr : Word := 0xFE02

/-- The keyboard ready value (00_scope.md R9). -/
def kbdReady : Word := 0x8000

/-- The number of cells (00_scope.md R9). -/
def memSize : Nat := 65536

/-- What a cell that memory does not list holds: the default of `INIT_MEM`, all 0x0000 (00_scope.md R10, D10). -/
def unlistedCell : Word := 0x0000

/-- Default `IN_PROMPT`: the 19 bytes of `Enter a character: ` (00_scope.md R10, D19). -/
def inPrompt : List Byte :=
  [0x45, 0x6E, 0x74, 0x65, 0x72, 0x20, 0x61, 0x20, 0x63, 0x68] ++
    [0x61, 0x72, 0x61, 0x63, 0x74, 0x65, 0x72, 0x3A, 0x20]

/-- Default `HALT_NOTICE`: `HALT` and a line feed (00_scope.md R10, D20). -/
def haltNotice : List Byte := [0x48, 0x41, 0x4C, 0x54, 0x0A]

/-- The running parameters of the default machine (00_scope.md R10). -/
def defaultRunParams : RunParams :=
  { unknownTrapPolicy := .fatal, inPrompt := inPrompt, haltNotice := haltNotice }

/-- The parameters of the default machine (00_scope.md R10). -/
def defaultParams : Params :=
  { pcStart := 0x3000, initCond := .zero, initRegs := Vector.replicate 8 0x0000, initMem := [], run := defaultRunParams }

end Config

end Sys2Proof
end

