-- ==== Sys2Proof/Machine/State.lean ====
section
/-! DEFINITION. The machine's state (10_state.md R20), the reasons a step can stop, and reset (70_reset_and_hazards.md
R210). -/

namespace Sys2Proof.Machine

/-- `RUN` (10_state.md R39). -/
inductive RunState where
  | running
  | halted
  | aborted
  deriving DecidableEq, Repr

/-- The causes of a fatal error (60_exceptions.md R182). -/
inductive FatalCause where
  | illegalOpcode
  | unknownTrapVector
  deriving DecidableEq, Repr

/-- One operation on the byte ports (00_scope.md R6). -/
inductive PortEvent where
  /-- `InAvail()` and its answer. -/
  | polled (ready : Bool)
  /-- `InRead()` and the byte it returned. -/
  | took (b : Byte)
  /-- `OutWrite(b)`. -/
  | wrote (b : Byte)
  deriving DecidableEq, Repr

/-- The state of the block (10_state.md R20), with the environment behind its two ports (00_scope.md R7, R8) and the
parameters it runs with (R10). -/
structure State where
  /-- `x[0]`..`x[7]` (10_state.md R21). -/
  regs : Vector Word 8
  /-- `pc` (10_state.md R26). -/
  pc : Word
  /-- `COND` (10_state.md R29). -/
  cond : Cond
  /-- `M[0]`..`M[65535]`, KBSR and KBDR among them (10_state.md R34, R36, R37). -/
  mem : Memory
  /-- `RUN` (10_state.md R39). -/
  run : RunState
  /-- `ABORT_CAUSE` (10_state.md R40), `none` for code 0. -/
  abortCause : Option FatalCause
  /-- `IN`, head first (00_scope.md R7). -/
  inQueue : List Byte
  /-- The input environment's schedule: the batches of bytes still to arrive, next first (00_scope.md R7; log entry
  5). -/
  arrivals : List (List Byte)
  /-- The schedule that starts again each time `arrivals` is used up; empty if no more bytes come (00_scope.md R7; log
  entry 5). -/
  refill : List (List Byte)
  /-- The port operations done, oldest first; `OUT` is read off it (00_scope.md R6, R8, R11; log entry 7). -/
  portLog : List PortEvent
  /-- The parameters read while running; no step changes them (00_scope.md R10; log entry 4). -/
  params : RunParams
  deriving DecidableEq, Repr

/-- Why a step answers no next state. Each is raised by the function named. The two that stand for an instruction that
never completes hold the state it has reached, so that what it has written is in the outcome (00_scope.md R6). -/
inductive Fault where
  /-- `RUN` is HALTED: no step is taken (10_state.md R39). Raised by `stopReason`. Not an error: the normal end of a
  run (70_reset_and_hazards.md R220). Safe: the engine does not go on either. -/
  | engineHalted
  /-- `RUN` is ABORTED: no step is taken (10_state.md R39; 60_exceptions.md R181). Raised by `stopReason`. Safe. -/
  | engineAborted
  /-- Stuck: GETC or IN waits in the state `waiting`, IN's prompt written, and no byte ever arrives (60_exceptions.md
  R190 (a)). Raised by `serviceGetc` and `serviceIn`. Safe: the engine makes no progress either. -/
  | inputHold (waiting : State)
  /-- PUTS or PUTSP never reads a zero word (60_exceptions.md R190 (b)). After `stringFuel` reads the loop stands in the
  state `reached`, all characters so far written, about to read address `next`; `putString` from there gives any further
  stretch of it. Raised by `serviceString`. Safe: the engine never completes this step. -/
  | stringNeverEnds (next : Word) (reached : State)
  deriving DecidableEq, Repr

/-- Why the host's load action refuses an image (20_memory.md R73). -/
inductive ImageError where
  /-- Fewer than 2 bytes. -/
  | tooShort
  /-- An odd number of bytes. -/
  | oddLength
  /-- The payload runs past address 0xFFFF. -/
  | pastEnd
  deriving DecidableEq, Repr

/-- What the model gives no meaning to. -/
inductive Refusal where
  /-- An instruction whose meaning is not written; raised by an arm of `exec` only. Safe. -/
  | notModelled (mnemonic : String)
  /-- A launch with an ill-formed image (20_memory.md R73). Raised by `launch`. Safe. -/
  | illFormedImage (why : ImageError)
  deriving DecidableEq, Repr

/-- What an instruction or a step answers. -/
abbrev Result := Host.Outcome State Fault Refusal

/-- `Reset` of 70_reset_and_hazards.md R210 with the parameters `p`, and with the input environment given: the bytes in
`IN` at reset, the schedule of later arrivals and the refill (10_state.md R43: "unconstrained"). -/
def State.resetWith (p : Params) (inQueue : List Byte) (arrivals refill : List (List Byte)) : State :=
  { regs := p.initRegs
    pc := p.pcStart
    cond := p.initCond
    mem := p.initMem
    run := .running
    abortCause := none
    inQueue := inQueue
    arrivals := arrivals
    refill := refill
    portLog := []
    params := p.run }

/-- The default machine right after reset (10_state.md R43; 70_reset_and_hazards.md R210), with no input. DESIGN CHOICE
(log entry 6): the input environment, which the spec leaves unconstrained, supplies nothing. -/
def State.reset : State := State.resetWith Config.defaultParams [] [] []

end Sys2Proof.Machine
end

