-- ==== Sys2Proof/Machine/Ops.lean ====
section
/-! DEFINITION. The named operations over memory, registers, ports and run state, each written once: the memory's cells
and its canonical form, `MemRead` with the keyboard intercept, `MemWrite`, the ports, the fetch, `raise Fatal`, trap
entry and trap return. -/

namespace Sys2Proof.Machine

/-! ### Memory as data -/

/-- The word of cell `a`: the first entry listed for it, else `Config.unlistedCell`. -/
def Memory.read (m : Memory) (a : Nat) : Word :=
  match m with
  | [] => Config.unlistedCell
  | (k, v) :: rest => if k = a then v else Memory.read rest a

/-- The memory without the entry of cell `a`. -/
def Memory.erase (m : Memory) (a : Nat) : Memory := m.filter (fun c => c.1 != a)

/-- The memory with an entry for cell `a`, before the first entry of a higher address. -/
def Memory.insert (m : Memory) (a : Nat) (v : Word) : Memory :=
  match m with
  | [] => [(a, v)]
  | (k, w) :: rest => if a < k then (a, v) :: (k, w) :: rest else (k, w) :: Memory.insert rest a v

/-- The memory after `v` is written to cell `a`. Writing what an unlisted cell reads as removes the entry, so that
equal memories are equal data. -/
def Memory.write (m : Memory) (a : Nat) (v : Word) : Memory :=
  if v = Config.unlistedCell then Memory.erase m a else Memory.insert (Memory.erase m a) a v

/-- The canonical form: addresses strictly rising, each in the address space (20_memory.md R50), and no entry equal to
what an unlisted cell reads as. -/
abbrev Memory.wf (m : Memory) : Prop :=
  m.Pairwise (fun c d => c.1 < d.1) ∧ ∀ c ∈ m, c.1 < Config.memSize ∧ c.2 ≠ Config.unlistedCell

/-! ### Registers, program counter, cells -/

/-- `x[r]` (00_scope.md R15). -/
def State.x (s : State) (r : Reg) : Word := s.regs.get r

/-- `x[r] <- v` (00_scope.md R15). No register is hard-wired (10_state.md R21). -/
def State.setX (s : State) (r : Reg) (v : Word) : State := { s with regs := s.regs.set r v }

/-- `pc <- t` (00_scope.md R15). -/
def State.setPc (s : State) (t : Word) : State := { s with pc := t }

/-- `M[a]`: the raw cell, no side effect (00_scope.md R15). -/
def State.cell (s : State) (a : Word) : Word := Memory.read s.mem a.toNat

/-- `M[a] <- v` (20_memory.md R56). -/
def State.setCell (s : State) (a v : Word) : State := { s with mem := Memory.write s.mem a.toNat v }

/-! ### The byte ports -/

/-- The byte an event wrote to the output port, if it is an `OutWrite`. -/
def PortEvent.written : PortEvent → Option Byte
  | .wrote b => some b
  | .polled _ | .took _ => none

/-- The byte an event took from the input port, if it is an `InRead`. -/
def PortEvent.taken : PortEvent → Option Byte
  | .took b => some b
  | .polled _ | .wrote _ => none

/-- `OUT`: the bytes written, in order (00_scope.md R8). -/
def State.out (s : State) : List Byte := s.portLog.filterMap PortEvent.written

/-- Port operations happen in the order they are logged (00_scope.md R6, R11). -/
def State.logPorts (s : State) (es : List PortEvent) : State := { s with portLog := s.portLog ++ es }

/-- The environment's turn before an `InAvail`: the next batch of the schedule is appended to `IN`; a schedule that is
used up starts again from `refill` (00_scope.md R7: "at any moment"; log entry 5). -/
def State.arrive (s : State) : State :=
  match s.arrivals, s.refill with
  | batch :: later, _ => { s with inQueue := s.inQueue ++ batch, arrivals := later }
  | [], batch :: later => { s with inQueue := s.inQueue ++ batch, arrivals := later }
  | [], [] => s

/-- The first byte of a list of batches, the rest of its batch and the batches after it; `none` if there is no byte. -/
def firstByte : List (List Byte) → Option (Byte × List Byte × List (List Byte))
  | [] => none
  | [] :: later => firstByte later
  | (b :: rest) :: later => some (b, rest, later)

/-- The byte an `InRead` gets, the rest of `IN` and the schedule left: the head of `IN`; while `IN` is empty the reader
waits and the batches of the schedule, then of `refill`, arrive one after another (00_scope.md R7). `none` if no byte ever
arrives. -/
def takeByte (queue : List Byte) (arrivals refill : List (List Byte)) :
    Option (Byte × List Byte × List (List Byte)) :=
  match firstByte (queue :: arrivals) with
  | some taken => some taken
  | none => firstByte refill

/-- `InRead()`: removes and returns the head of `IN` (00_scope.md R7). If the wait never ends (60_exceptions.md R190 (a)),
the state in which the engine waits, the schedule used up. -/
def inRead (s : State) : Except State (Byte × State) :=
  match takeByte s.inQueue s.arrivals s.refill with
  | none => .error { s with arrivals := [] }
  | some (b, rest, later) => .ok (b, { s with inQueue := rest, arrivals := later }.logPorts [.took b])

/-- `OutWrite(b)` for each byte in order (00_scope.md R6, R8). -/
def outWrite (bs : List Byte) (s : State) : State := s.logPorts (bs.map .wrote)

/-- The 16-bit word whose low 8 bits are the byte and whose high 8 bits are 0: `zext_8` (00_scope.md R14). -/
def zext8 (b : Byte) : Word := b.setWidth 16

/-- The poll a read of KBSR makes (20_memory.md R53): `InAvail()`, then, if a byte is there, KBSR ready and the byte
taken into KBDR, else KBSR zero and KBDR unchanged. The `InRead()` inside cannot wait. -/
def pollKeyboard (s : State) : State :=
  match s.arrive.inQueue with
  | [] => (s.arrive.logPorts [.polled false]).setCell Config.kbsr 0x0000
  | b :: rest =>
    (({ s.arrive with inQueue := rest }.logPorts [.polled true, .took b]).setCell Config.kbsr Config.kbdReady).setCell
      Config.kbdr (zext8 b)

/-! ### The address space's two operations -/

/-- `MemRead(a, 16)`: the word read and the state after the read (20_memory.md R53). -/
def memRead (a : Word) (s : State) : Word × State :=
  if a = Config.kbsr then ((pollKeyboard s).cell a, pollKeyboard s) else (s.cell a, s)

/-- `MemWrite(a, 16, v)`: a plain store at every address (20_memory.md R56). -/
def memWrite (a v : Word) (s : State) : State := s.setCell a v

/-! ### Fetch, fatal errors, trap entry and return -/

/-- Why no step is taken from a state, if none is (10_state.md R39). -/
def stopReason (s : State) : Option Fault :=
  match s.run with
  | .running => none
  | .halted => some .engineHalted
  | .aborted => some .engineAborted

/-- The fetch: the word at `pc` through the intercept, and the state with `pc` advanced by one (10_state.md R27;
70_reset_and_hazards.md R215). -/
def fetch (s : State) : Word × State :=
  ((memRead s.pc s).1, (memRead s.pc s).2.setPc (s.pc + 1))

/-- `code(cause)` (60_exceptions.md R181; 10_state.md R40). -/
def FatalCause.code : FatalCause → Nat
  | .illegalOpcode => 1
  | .unknownTrapVector => 2

/-- The numeric value of `ABORT_CAUSE` (10_state.md R40). -/
def State.abortCode (s : State) : Nat := (s.abortCause.map FatalCause.code).getD 0

/-- `raise Fatal(cause)`: the one exception entry of the machine. It records the cause and aborts; nothing is saved and
control goes nowhere (60_exceptions.md R181, R189). -/
def raiseFatal (cause : FatalCause) (s : State) : State := { s with abortCause := some cause, run := .aborted }

/-- Entry to a trap: the link `x[7] <- pc`, for every vector; nothing else is saved (44_trap.md R150; 60_exceptions.md
R189). The subroutine calls link the same way (41_control.md R123, R124). -/
def linkR7 (s : State) : State := s.setX 7 s.pc

/-- Return from a trap service: it finishes. Nothing is restored and `pc` is already the address after the TRAP
(44_trap.md R151; 60_exceptions.md R191). -/
def trapReturn (s : State) : Result := .next s

/-- `RUN <- HALTED` (44_trap.md R157). -/
def haltEngine (s : State) : State := { s with run := .halted }

end Sys2Proof.Machine
end

