-- ==== Sys2Proof/Machine/Operands.lean ====
section
/-! DEFINITION. Operand forms: sign extension (00_scope.md R14), the two bytes of a word, and the four ways to form an
address (42_load.md R134). -/

namespace Sys2Proof.Machine

/-- `sext_N`: the field in the low bits, its top bit copied into all higher bits (00_scope.md R14; 30_encoding.md
R86). -/
def sext {n : Nat} (v : BitVec n) : Word := v.signExtend 16

/-- Bits 7:0 of a word (20_memory.md R61). -/
def lowByte (w : Word) : Byte := w.extractLsb' 0 8

/-- Bits 15:8 of a word (20_memory.md R61). -/
def highByte (w : Word) : Byte := w.extractLsb' 8 8

/-- PC-relative: the advanced `pc` plus the offset, modulo 2^16 (42_load.md R134). Also BR's and JSR's target. -/
def pcRelative {n : Nat} (off : BitVec n) (s : State) : Word := s.pc + sext off

/-- Base plus offset, modulo 2^16; the base register is not changed (42_load.md R134). -/
def basePlusOffset (base : Reg) (off : BitVec 6) (s : State) : Word := s.x base + sext off

/-- Indirect: the pointer read, through the intercept, from the PC-relative address; the address it holds and the state
after the read (42_load.md R134). -/
def indirect (off : BitVec 9) (s : State) : Word × State := memRead (pcRelative off s) s

/-- PUTS's characters of one word: its low 8 bits (44_trap.md R154). -/
def putsChars (w : Word) : List Byte := [lowByte w]

/-- PUTSP's characters of one word: the low byte, always, then the high byte if it is not 0x00 (44_trap.md R156). -/
def putspChars (w : Word) : List Byte :=
  if highByte w = 0x00 then [lowByte w] else [lowByte w, highByte w]

end Sys2Proof.Machine
end

