-- ==== Sys2Proof/Machine/Flags.lean ====
section
/-! DEFINITION. The condition flags: the update rule `SetCC` (10_state.md R30) and BR's test (30_encoding.md R90). -/

namespace Sys2Proof.Machine

/-- The flag of a value: ZERO if it is 0x0000, NEGATIVE if bit 15 is 1, else POSITIVE (10_state.md R30). -/
def condOf (v : Word) : Cond :=
  if v = 0x0000 then .zero else if v.getLsbD 15 then .negative else .positive

/-- `SetCC(r)`: the flag of what register `r` holds now (10_state.md R30). -/
def setCC (r : Reg) (s : State) : State := { s with cond := condOf (s.x r) }

/-- The destination write of a value-producing instruction, then `SetCC` of the register (10_state.md R31; 40_alu.md
R116). -/
def writeResult (dr : Reg) (v : Word) (s : State) : State := setCC dr (s.setX dr v)

/-- `COND[2:0]`, one-hot: NEGATIVE, ZERO, POSITIVE from the high bit down (10_state.md R29). -/
def condBits : Cond → BitVec 3
  | .negative => 0b100
  | .zero => 0b010
  | .positive => 0b001

/-- BR's test: the mask ANDed with the flags is not 0 (30_encoding.md R90). -/
def branchTaken (nzp : BitVec 3) (c : Cond) : Bool := (nzp &&& condBits c) != 0

end Sys2Proof.Machine
end

