-- ==== Sys2Proof/Machine/Alu.lean ====
section
/-! DEFINITION. ADD, AND, NOT (40_alu.md). -/

namespace Sys2Proof.Machine

/-- ADD, register mode (40_alu.md R110). -/
def execAddReg (dr sr1 sr2 : Reg) (s : State) : Result :=
  .next (writeResult dr (s.x sr1 + s.x sr2) s)

/-- ADD, immediate mode (40_alu.md R111). -/
def execAddImm (dr sr1 : Reg) (imm : BitVec 5) (s : State) : Result :=
  .next (writeResult dr (s.x sr1 + sext imm) s)

/-- AND, register mode (40_alu.md R112). -/
def execAndReg (dr sr1 sr2 : Reg) (s : State) : Result :=
  .next (writeResult dr (s.x sr1 &&& s.x sr2) s)

/-- AND, immediate mode; the immediate is sign-extended (40_alu.md R113). -/
def execAndImm (dr sr1 : Reg) (imm : BitVec 5) (s : State) : Result :=
  .next (writeResult dr (s.x sr1 &&& sext imm) s)

/-- NOT (40_alu.md R114). -/
def execNot (dr sr : Reg) (s : State) : Result :=
  .next (writeResult dr (~~~ s.x sr) s)

end Sys2Proof.Machine
end

