-- ==== Sys2Proof/Machine/Control.lean ====
section
/-! DEFINITION. BR, JMP, RET, JSR, JSRR (41_control.md). -/

namespace Sys2Proof.Machine

/-- BR (41_control.md R120). -/
def execBr (nzp : BitVec 3) (off : BitVec 9) (s : State) : Result :=
  .next (if branchTaken nzp s.cond then s.setPc (pcRelative off s) else s)

/-- JMP (41_control.md R121). -/
def execJmp (base : Reg) (s : State) : Result :=
  .next (s.setPc (s.x base))

/-- RET: JMP through R7, nothing more (41_control.md R122). -/
def execRet (s : State) : Result :=
  .next (s.setPc (s.x 7))

/-- JSR: the link, then the PC-relative target (41_control.md R123). -/
def execJsr (off : BitVec 11) (s : State) : Result :=
  .next ((linkR7 s).setPc (pcRelative off s))

/-- JSRR: the link first, then the target from the base register, so that `JSRR R7` goes to the next instruction
(41_control.md R124). -/
def execJsrr (base : Reg) (s : State) : Result :=
  .next ((linkR7 s).setPc ((linkR7 s).x base))

end Sys2Proof.Machine
end

