-- ==== Sys2Proof/Machine/Load.lean ====
section
/-! DEFINITION. LD, LDI, LDR, LEA (42_load.md). -/

namespace Sys2Proof.Machine

/-- `x[dr] <- MemRead(ea, 16)`, then `SetCC(dr)` (42_load.md R130 to R132). -/
def loadInto (dr : Reg) (ea : Word) (s : State) : State :=
  writeResult dr (memRead ea s).1 (memRead ea s).2

/-- LD (42_load.md R130). -/
def execLd (dr : Reg) (off : BitVec 9) (s : State) : Result :=
  .next (loadInto dr (pcRelative off s) s)

/-- LDI: the pointer first, then the data, both through the intercept (42_load.md R131). -/
def execLdi (dr : Reg) (off : BitVec 9) (s : State) : Result :=
  .next (loadInto dr (indirect off s).1 (indirect off s).2)

/-- LDR; the address uses the base register's old value (42_load.md R132). -/
def execLdr (dr base : Reg) (off : BitVec 6) (s : State) : Result :=
  .next (loadInto dr (basePlusOffset base off s) s)

/-- LEA: the address itself, no access; the flags are set (42_load.md R133). -/
def execLea (dr : Reg) (off : BitVec 9) (s : State) : Result :=
  .next (writeResult dr (pcRelative off s) s)

end Sys2Proof.Machine
end

