-- ==== Sys2Proof/Machine/Reserved.lean ====
section
/-! DEFINITION. The fatal opcodes RTI and RES (45_reserved.md). -/

namespace Sys2Proof.Machine

/-- RTI (45_reserved.md R170). -/
def execRti (s : State) : Result := .next (raiseFatal .illegalOpcode s)

/-- RES (45_reserved.md R171). -/
def execRes (s : State) : Result := .next (raiseFatal .illegalOpcode s)

end Sys2Proof.Machine
end

