-- ==== Sys2Proof/Machine/Store.lean ====
section
/-! DEFINITION. ST, STI, STR (43_store.md). -/

namespace Sys2Proof.Machine

/-- ST (43_store.md R140). -/
def execSt (sr : Reg) (off : BitVec 9) (s : State) : Result :=
  .next (memWrite (pcRelative off s) (s.x sr) s)

/-- STI: the pointer read through the intercept, then the store (43_store.md R141). -/
def execSti (sr : Reg) (off : BitVec 9) (s : State) : Result :=
  .next (memWrite (indirect off s).1 ((indirect off s).2.x sr) (indirect off s).2)

/-- STR (43_store.md R142). -/
def execStr (sr base : Reg) (off : BitVec 6) (s : State) : Result :=
  .next (memWrite (basePlusOffset base off s) (s.x sr) s)

end Sys2Proof.Machine
end

