-- ==== Sys2Proof/Machine/Trap.lean ====
section
/-! DEFINITION. TRAP, its six services and the unknown vectors (44_trap.md). A service here is what happens after the
link write. -/

namespace Sys2Proof.Machine

/-- GETC after the link: one byte into R0, zero-extended, and the flags (44_trap.md R152). -/
def serviceGetc (s : State) : Result :=
  match inRead s with
  | .error waiting => .fault (.inputHold waiting)
  | .ok (b, s') => trapReturn (writeResult 0 (zext8 b) s')

/-- OUT after the link: the low 8 bits of R0 (44_trap.md R153). -/
def serviceOut (s : State) : Result := trapReturn (outWrite [lowByte (s.x 0)] s)

/-- The loop of PUTS and PUTSP from address `a` on: read a word through the intercept; a zero word ends the string, any
other writes its characters and the loop goes on at the next address (44_trap.md R154, R156). `fuel` bounds the number
of reads; when it is used up, the address and the state the loop has reached. -/
def putString (chars : Word → List Byte) (fuel : Nat) (a : Word) (s : State) : Except (Word × State) State :=
  match fuel with
  | 0 => .error (a, s)
  | fuel + 1 =>
    if (memRead a s).1 = 0x0000 then .ok (memRead a s).2
    else putString chars fuel (a + 1) (outWrite (chars (memRead a s).1) (memRead a s).2)

/-- The number of polls after which a string that has not ended never will: the schedule, once round the refill for
each byte there is before it and once more (a refill of fewer bytes than batches runs dry by then), and each byte that is
there before the refill starts again (a zero byte ends the string when it is in KBDR). DEDUCED (log entry 8). -/
def stringPolls (s : State) : Nat :=
  s.arrivals.length + (s.inQueue.length + s.arrivals.flatten.length + 1) * s.refill.length +
    (s.inQueue.length + s.arrivals.flatten.length + 1) + s.refill.flatten.length

/-- The number of reads after which a string that has not ended never will. A lap of 65536 reads polls the keyboard
once, and a poll that finds no byte reads 0x0000 and ends the string. DEDUCED (log entry 8). -/
def stringFuel (s : State) : Nat := Config.memSize * (stringPolls s + 1)

/-- A string service after the link; R0 is read once (44_trap.md R154, R156). -/
def serviceString (chars : Word → List Byte) (s : State) : Result :=
  match putString chars (stringFuel s) (s.x 0) s with
  | .error (next, reached) => .fault (.stringNeverEnds next reached)
  | .ok s' => trapReturn s'

/-- IN after the link: the prompt, one byte, its echo, R0 and the flags, in this order (44_trap.md R155). -/
def serviceIn (s : State) : Result :=
  match inRead (outWrite s.params.inPrompt s) with
  | .error waiting => .fault (.inputHold waiting)
  | .ok (b, s') => trapReturn (writeResult 0 (zext8 b) (outWrite [b] s'))

/-- HALT after the link: the notice, then `RUN <- HALTED` (44_trap.md R157). -/
def serviceHalt (s : State) : Result := trapReturn (haltEngine (outWrite s.params.haltNotice s))

/-- An unknown vector after the link, by policy (44_trap.md R158). -/
def serviceUnknown (s : State) : Result :=
  match s.params.unknownTrapPolicy with
  | .fatal => .next (raiseFatal .unknownTrapVector s)
  | .noop => trapReturn s

/-- The dispatch on the vector (44_trap.md R150). -/
def trapService (vect : BitVec 8) (s : State) : Result :=
  if vect = 0x20 then serviceGetc s
  else if vect = 0x21 then serviceOut s
  else if vect = 0x22 then serviceString putsChars s
  else if vect = 0x23 then serviceIn s
  else if vect = 0x24 then serviceString putspChars s
  else if vect = 0x25 then serviceHalt s
  else serviceUnknown s

/-- TRAP: the link, for every vector, then the service (44_trap.md R150). -/
def execTrap (vect : BitVec 8) (s : State) : Result := trapService vect (linkR7 s)

/-- GETC, TRAP x20 (44_trap.md R152). -/
def execGetc (s : State) : Result := serviceGetc (linkR7 s)

/-- OUT, TRAP x21 (44_trap.md R153). -/
def execOut (s : State) : Result := serviceOut (linkR7 s)

/-- PUTS, TRAP x22 (44_trap.md R154). -/
def execPuts (s : State) : Result := serviceString putsChars (linkR7 s)

/-- IN, TRAP x23 (44_trap.md R155). -/
def execIn (s : State) : Result := serviceIn (linkR7 s)

/-- PUTSP, TRAP x24 (44_trap.md R156). -/
def execPutsp (s : State) : Result := serviceString putspChars (linkR7 s)

/-- HALT, TRAP x25 (44_trap.md R157). -/
def execHalt (s : State) : Result := serviceHalt (linkR7 s)

end Sys2Proof.Machine
end

