-- ==== Sys2Proof/Machine/Step.lean ====
section
/-! DEFINITION. One step of the engine (70_reset_and_hazards.md R215). -/

namespace Sys2Proof.Machine

/-- `Step`: while `RUN` = RUNNING, fetch through the intercept, advance `pc`, decode and execute one instruction to
completion; no step from HALTED or ABORTED (70_reset_and_hazards.md R215; 10_state.md R39). -/
def step (s : State) : Host.Outcome State Fault Refusal :=
  match stopReason s with
  | some why => .fault why
  | none => exec (decode (fetch s).1) (fetch s).2

/-- The state with one instruction's word, the row of the opcode table whose bits are `w`, in the cell `pc` names, where
the next step fetches. It stands for the host's load of a program there (20_memory.md R71; log entry 12). (A fetch at
0xFE00 reads the keyboard's answer, never a stored word: 20_memory.md R55, R57.) -/
def State.withFetchWord (s : State) (nbits w : Nat) : State := s.setCell s.pc (tableWord nbits w)

end Sys2Proof.Machine
end

