-- ==== Sys2Proof/Machine/Environment.lean ====
section
/-! DEFINITION. The input environment between steps (00_scope.md R5, R7; 70_reset_and_hazards.md R216). The fields
`arrivals` and `refill` of a state foretell the arrivals inside the steps to come; here the environment acts at any moment
between steps, and may send anything then and from then on. -/

namespace Sys2Proof.Machine

/-- What the environment does at one moment between steps. -/
structure Supply where
  /-- The bytes that arrive now. -/
  now : List Byte
  /-- The arrivals from now on, foretold anew: the schedule. -/
  arrivals : List (List Byte)
  /-- The schedule that starts again when `arrivals` is used up. -/
  refill : List (List Byte)
  deriving DecidableEq, Repr

/-- The environment's turn between steps: bytes are appended to the tail of `IN` (00_scope.md R7), and what is still to
come is chosen anew. Nothing else changes. -/
def State.supply (s : State) (e : Supply) : State :=
  { s with inQueue := s.inQueue ++ e.now, arrivals := e.arrivals, refill := e.refill }

/-- `k` steps with the environment `env`, any function of the moment: it acts before each step. The outcome is that of the
first step that gives no next state, or the state after `k` steps. -/
def runWith (env : Nat → Supply) : Nat → State → Result
  | 0, s => .next s
  | k + 1, s =>
    match runWith env k s with
    | .next t => step (t.supply (env k))
    | .fault f => .fault f
    | .refused r => .refused r

end Sys2Proof.Machine
end

