-- ==== Sys2Proof/Machine/Image.lean ====
section
/-! DEFINITION. The program image and the host's load action, which make the initial memory (20_memory.md R70 to R74;
70_reset_and_hazards.md R212). -/

namespace Sys2Proof.Machine

/-- A parsed image: the origin word and the payload (20_memory.md R70). -/
structure Image where
  origin : Word
  words : List Word
  deriving DecidableEq, Repr

/-- Big-endian words of a byte list; `none` if the number of bytes is odd (20_memory.md R70, R73). -/
def wordsOfBytes : List Byte → Option (List Word)
  | [] => some []
  | [_] => none
  | hi :: lo :: rest =>
    match wordsOfBytes rest with
    | none => none
    | some ws => some ((hi ++ lo) :: ws)

/-- The image a file's bytes are (20_memory.md R70), or why it is refused (R73). -/
def parseImage (bytes : List Byte) : Except ImageError Image :=
  if bytes.length < 2 then .error .tooShort
  else
    match wordsOfBytes bytes with
    | none => .error .oddLength
    | some [] => .error .tooShort
    | some (origin :: words) =>
      if Config.memSize < origin.toNat + words.length then .error .pastEnd
      else .ok { origin := origin, words := words }

/-- The words written to consecutive cells from cell `a` on. -/
def loadWords (m : Memory) (a : Nat) : List Word → Memory
  | [] => m
  | w :: ws => loadWords (Memory.write m a w) (a + 1) ws

/-- The host's load of one image (20_memory.md R71): payload word `j` to cell `origin + j`, no other cell. -/
def loadImage (img : Image) (m : Memory) : Memory := loadWords m img.origin.toNat img.words

/-- The loads in the order given; later loads overwrite (20_memory.md R72). An ill-formed image refuses them all
(R73). -/
def loadImages : List (List Byte) → Memory → Except ImageError Memory
  | [], m => .ok m
  | file :: files, m =>
    match parseImage file with
    | .error why => .error why
    | .ok img => loadImages files (loadImage img m)

/-- The boot sequence: reset, then the image loads; the engine then steps from here (70_reset_and_hazards.md R212). -/
def launch (p : Params) (files : List (List Byte)) (inQueue : List Byte)
    (arrivals refill : List (List Byte)) : Result :=
  match loadImages files p.initMem with
  | .error why => .refused (.illFormedImage why)
  | .ok m => .next { State.resetWith p inQueue arrivals refill with mem := m }

end Sys2Proof.Machine
end

