-- ==== Sys2Proof/Safety.lean ====
section
/-! DEFINITION. The terms claims about runs use: legal states (10_state.md R45), reachability by steps and
by arrivals of input, and the ways a run ends (70_reset_and_hazards.md R220). -/

namespace Sys2Proof.Machine

/-- The invariants of 10_state.md R45 that the types do not already force: memory keeps its canonical form, and `RUN`
is ABORTED exactly when `ABORT_CAUSE` is not none. (COND's legality and the word ranges hold by type.) -/
structure State.Legal (s : State) : Prop where
  mem_wf : Memory.wf s.mem
  aborted_iff : s.run = .aborted ↔ s.abortCause ≠ none

/-- `t` is reached from `s` by steps of the engine and, between them, turns of the input environment (00_scope.md R7). -/
inductive Reaches : State → State → Prop where
  | refl (s : State) : Reaches s s
  | tail {s t u : State} : Reaches s t → step t = .next u → Reaches s u
  | supply {s t : State} (e : Supply) : Reaches s t → Reaches s (t.supply e)

/-- The ways a step can find no next state (70_reset_and_hazards.md R220): the one successful end, the abort, and the
two that are no end (stuck on input; a string service that never ends). -/
inductive Ending where
  | normalHalt
  | abort
  | stuck
  | divergence
  deriving DecidableEq, Repr

/-- Which of them a fault of the model is. -/
def Fault.ending : Fault → Ending
  | .engineHalted => .normalHalt
  | .engineAborted => .abort
  | .inputHold _ => .stuck
  | .stringNeverEnds _ _ => .divergence

/-- The state a step has reached when it does not complete, if the fault is of that kind: a step from HALTED or ABORTED
is never begun. -/
def Fault.reached : Fault → Option State
  | .engineHalted | .engineAborted => none
  | .inputHold waiting => some waiting
  | .stringNeverEnds _ reached => some reached

/-- The state a step's outcome shows: the next state, or the state that a step which never completes has reached. -/
def shown : Result → Option State
  | .next t => some t
  | .fault f => f.reached
  | .refused _ => none

/-- A run from `s` ends well: it reaches a HALTED state. An ABORTED state "is never a final state of a successful run"
(60_exceptions.md R181). -/
def EndsWell (s : State) : Prop := ∃ t, Reaches s t ∧ t.run = .halted

end Sys2Proof.Machine
end

