-- ==== Sys2Proof/Certificates/Slice0/Obligations.lean ====
section
/-! DEFINITION. What is claimed of the machine: each `Obligations.<Name>` formalises rules of spec/, cited in
OBLIGATIONS.json and in its docstring. Before them, the shapes several of them share. -/

namespace Sys2Proof.Machine

/-- `c` is the flag of the value `v` (10_state.md R30), said case by case. -/
def IsFlagOf (v : Word) (c : Cond) : Prop :=
  (v = 0x0000 → c = .zero) ∧
  (v ≠ 0x0000 → v.getLsbD 15 = true → c = .negative) ∧
  (v ≠ 0x0000 → v.getLsbD 15 = false → c = .positive)

/-- Every register is as before. -/
def SameRegs (s t : State) : Prop := ∀ r, t.x r = s.x r

/-- Every memory cell reads as before. -/
def SameCells (s t : State) : Prop := ∀ a, t.cell a = s.cell a

/-- Nothing happened at the ports: the input queue, its schedule and the port log are as before. -/
def SamePorts (s t : State) : Prop :=
  t.inQueue = s.inQueue ∧ t.arrivals = s.arrivals ∧ t.refill = s.refill ∧ t.portLog = s.portLog

/-- `RUN`, `ABORT_CAUSE` and the parameters are as before. -/
def SameControl (s t : State) : Prop := t.run = s.run ∧ t.abortCause = s.abortCause ∧ t.params = s.params

/-- From `s` to `t` register `dr` got `v`, `COND` got `v`'s flag, and nothing else changed. -/
def OnlyResultWritten (dr : Reg) (v : Word) (s t : State) : Prop :=
  t.x dr = v ∧ IsFlagOf v t.cond ∧ (∀ r, r ≠ dr → t.x r = s.x r) ∧ t.pc = s.pc ∧ SameCells s t ∧ SamePorts s t ∧
    SameControl s t

/-- From `s` to `t` cell `a` got `v`, every other cell reads as before, and nothing else changed. -/
def OnlyCellWritten (a v : Word) (s t : State) : Prop :=
  t.cell a = v ∧ (∀ c, c ≠ a → t.cell c = s.cell c) ∧ SameRegs s t ∧ t.pc = s.pc ∧ t.cond = s.cond ∧ SamePorts s t ∧
    SameControl s t

/-- From `s` to `t` the program counter got `target`, R7 got `link` if there is one, and nothing else changed. -/
def OnlyJumped (target : Word) (link : Option Word) (s t : State) : Prop :=
  t.pc = target ∧ (∀ l, link = some l → t.x 7 = l) ∧ (∀ r, r ≠ 7 ∨ link = none → t.x r = s.x r) ∧ t.cond = s.cond ∧
    SameCells s t ∧ SamePorts s t ∧ SameControl s t

/-- From `s` to `t` the port log grew by `es`, R7 got the link, and nothing else changed. -/
def OnlyLinkedAndWrote (es : List PortEvent) (s t : State) : Prop :=
  t.portLog = s.portLog ++ es ∧ t.x 7 = s.pc ∧ (∀ r, r ≠ 7 → t.x r = s.x r) ∧ t.pc = s.pc ∧ t.cond = s.cond ∧
    SameCells s t ∧ t.inQueue = s.inQueue ∧ t.arrivals = s.arrivals ∧ t.refill = s.refill ∧ SameControl s t

/-- From `s` to `t` the byte `b` came into R0, its flag into `COND`, the link into R7, `IN` and its schedule became
`rest` and `later`, the port log grew by `es`, and nothing else changed. -/
def OnlyCharRead (b : Byte) (rest : List Byte) (later : List (List Byte)) (es : List PortEvent) (s t : State) : Prop :=
  t.x 0 = 0#8 ++ b ∧ t.x 7 = s.pc ∧ (∀ r, r ≠ 0 → r ≠ 7 → t.x r = s.x r) ∧ IsFlagOf (0#8 ++ b) t.cond ∧
    t.cond ≠ .negative ∧ t.pc = s.pc ∧ SameCells s t ∧ t.inQueue = rest ∧ t.arrivals = later ∧ t.refill = s.refill ∧
    t.portLog = s.portLog ++ es ∧ SameControl s t

/-- From `s` to `t` the engine aborted with `cause`, and nothing else changed (60_exceptions.md R181). -/
def OnlyAborted (cause : FatalCause) (s t : State) : Prop :=
  t.run = .aborted ∧ t.abortCause = some cause ∧ SameRegs s t ∧ t.pc = s.pc ∧ t.cond = s.cond ∧ SameCells s t ∧
    SamePorts s t ∧ t.params = s.params

/-- The register whose flag an instruction sets, if it sets one (10_state.md R31). -/
def flagSource : Instr → Option Reg
  | .addReg dr _ _ | .addImm dr _ _ | .andReg dr _ _ | .andImm dr _ _ | .not dr _ => some dr
  | .ld dr _ | .ldi dr _ | .ldr dr _ _ | .lea dr _ => some dr
  | .getc | .inChar => some 0
  | .trap vect => if vect = 0x20 ∨ vect = 0x23 then some 0 else none
  | .st _ _ | .sti _ _ | .str _ _ _ | .br _ _ | .jmp _ | .ret | .jsr _ | .jsrr _ => none
  | .out | .puts | .putsp | .halt | .rti | .res => none

/-- The registers an instruction may write (10_state.md R22, R23, R24). -/
def writtenRegs : Instr → List Reg
  | .addReg dr _ _ | .addImm dr _ _ | .andReg dr _ _ | .andImm dr _ _ | .not dr _ => [dr]
  | .ld dr _ | .ldi dr _ | .ldr dr _ _ | .lea dr _ => [dr]
  | .jsr _ | .jsrr _ | .out | .puts | .putsp | .halt => [7]
  | .getc | .inChar => [0, 7]
  | .trap vect => if vect = 0x20 ∨ vect = 0x23 then [0, 7] else [7]
  | .st _ _ | .sti _ _ | .str _ _ _ | .br _ _ | .jmp _ | .ret | .rti | .res => []

/-- The instructions that store to memory (10_state.md R38). -/
def isStore : Instr → Bool
  | .st _ _ | .sti _ _ | .str _ _ _ => true
  | .addReg _ _ _ | .addImm _ _ _ | .andReg _ _ _ | .andImm _ _ _ | .not _ _ | .ld _ _ | .ldi _ _ => false
  | .ldr _ _ _ | .lea _ _ | .br _ _ | .jmp _ | .ret | .jsr _ | .jsrr _ | .trap _ => false
  | .getc | .out | .puts | .inChar | .putsp | .halt | .rti | .res => false

/-- The control transfers, the instructions that move `pc` (10_state.md R27). -/
def isJump : Instr → Bool
  | .br _ _ | .jmp _ | .ret | .jsr _ | .jsrr _ => true
  | .addReg _ _ _ | .addImm _ _ _ | .andReg _ _ _ | .andImm _ _ _ | .not _ _ | .ld _ _ | .ldi _ _ => false
  | .ldr _ _ _ | .lea _ _ | .st _ _ | .sti _ _ | .str _ _ _ | .trap _ => false
  | .getc | .out | .puts | .inChar | .putsp | .halt | .rti | .res => false

/-- TRAP and its services (44_trap.md R150). -/
def isTrap : Instr → Bool
  | .trap _ | .getc | .out | .puts | .inChar | .putsp | .halt => true
  | .addReg _ _ _ | .addImm _ _ _ | .andReg _ _ _ | .andImm _ _ _ | .not _ _ | .ld _ _ | .ldi _ _ => false
  | .ldr _ _ _ | .lea _ _ | .st _ _ | .sti _ _ | .str _ _ _ => false
  | .br _ _ | .jmp _ | .ret | .jsr _ | .jsrr _ | .rti | .res => false

/-- The instructions that can wait for input or run through a string: GETC, IN, PUTS, PUTSP, by either spelling
(60_exceptions.md R190). -/
def mayNotComplete : Instr → Bool
  | .getc | .inChar | .puts | .putsp => true
  | .trap vect => vect = 0x20 ∨ vect = 0x22 ∨ vect = 0x23 ∨ vect = 0x24
  | .addReg _ _ _ | .addImm _ _ _ | .andReg _ _ _ | .andImm _ _ _ | .not _ _ | .ld _ _ | .ldi _ _ => false
  | .ldr _ _ _ | .lea _ _ | .st _ _ | .sti _ _ | .str _ _ _ => false
  | .br _ _ | .jmp _ | .ret | .jsr _ | .jsrr _ | .out | .halt | .rti | .res => false

/-- Two faults are of the same kind, and the states they hold, if they hold one, are equal but for `COND`. -/
def AlikeFaults : Fault → Fault → Prop
  | .engineHalted, .engineHalted | .engineAborted, .engineAborted => True
  | .inputHold t, .inputHold u => u = { t with cond := u.cond }
  | .stringNeverEnds a t, .stringNeverEnds b u => a = b ∧ u = { t with cond := u.cond }
  | _, _ => False

/-- Two results are alike but for `COND`: both next states, equal in every other field, or stops that are alike so. -/
def AlikeButCond : Result → Result → Prop
  | .next t, .next u => u = { t with cond := u.cond }
  | .fault f, .fault g => AlikeFaults f g
  | .refused p, .refused q => p = q
  | .next _, .fault _ | .next _, .refused _ | .fault _, .next _ => False
  | .fault _, .refused _ | .refused _, .next _ | .refused _, .fault _ => False

/-- The 16-bit word at each of the `ws.length` addresses from `a` on (modulo 2^16) is the next of `ws`, none of them is
KBSR's address, and the cell after them is not KBSR and holds 0: a terminated string that the keyboard intercept does
not touch (44_trap.md R154). -/
def HoldsString (s : State) (a : Word) (ws : List Word) : Prop :=
  (∀ (j : Nat) (h : j < ws.length),
    s.cell (a + BitVec.ofNat 16 j) = ws[j] ∧ ws[j] ≠ 0x0000 ∧ a + BitVec.ofNat 16 j ≠ 0xFE00) ∧
  s.cell (a + BitVec.ofNat 16 ws.length) = 0x0000 ∧ a + BitVec.ofNat 16 ws.length ≠ 0xFE00

/-- PUTS's characters of one word: its low 8 bits (44_trap.md R154). -/
def lowByteOf (w : Word) : List Byte := [w.extractLsb' 0 8]

/-- PUTSP's characters of one word: the low byte, always, then the high byte if it is not 0x00 (44_trap.md R156). -/
def packedBytesOf (w : Word) : List Byte :=
  w.extractLsb' 0 8 :: if w.extractLsb' 8 8 = 0x00#8 then [] else [w.extractLsb' 8 8]

/-- Reading a string through `MemRead` from address `a` and state `s` on: the words read before the zero word, the
characters of each written before the next is read, and the state after the zero word is read (44_trap.md R154, R156). A
read at KBSR polls. -/
inductive ReadsString (chars : Word → List Byte) : Word → State → List Word → State → Prop where
  | stop {a : Word} {s : State} : (memRead a s).1 = 0x0000 → ReadsString chars a s [] (memRead a s).2
  | char {a : Word} {s t : State} {ws : List Word} : (memRead a s).1 ≠ 0x0000 →
    ReadsString chars (a + 1) (outWrite (chars (memRead a s).1) (memRead a s).2) ws t →
    ReadsString chars a s ((memRead a s).1 :: ws) t

/-- The state after reads of these addresses, one after another. -/
def readAll : List Word → State → State
  | [], s => s
  | a :: as, s => readAll as (memRead a s).2

/-- Of these reads, one after another, none finds a key: at each that is at KBSR's address `IN` is empty. -/
def FindsNoKey : List Word → State → Prop
  | [], _ => True
  | a :: as, s => (a = 0xFE00 → s.arrive.inQueue = []) ∧ FindsNoKey as (memRead a s).2

/-- The addresses a load reads, in order; LEA and every other instruction reads none as a load (42_load.md R134). -/
def loadAddresses : Instr → State → List Word
  | .ld _ off, s => [pcRelative off s]
  | .ldr _ base off, s => [basePlusOffset base off s]
  | .ldi _ off, s => [pcRelative off s, (indirect off s).1]
  | .lea _ _, _ | .addReg _ _ _, _ | .addImm _ _ _, _ | .andReg _ _ _, _ | .andImm _ _ _, _ | .not _ _, _ => []
  | .st _ _, _ | .sti _ _, _ | .str _ _ _, _ | .br _ _, _ | .jmp _, _ | .ret, _ | .jsr _, _ | .jsrr _, _ => []
  | .trap _, _ | .getc, _ | .out, _ | .puts, _ | .inChar, _ | .putsp, _ | .halt, _ | .rti, _ | .res, _ => []

/-- The file of an image: each word's two bytes, the high one first (20_memory.md R70). -/
def imageFile (origin : Word) (words : List Word) : List Byte :=
  (origin :: words).flatMap fun w => [w.extractLsb' 8 8, w.extractLsb' 0 8]

/-- The three ways a file is no image (20_memory.md R73). -/
def IllFormedImage (file : List Byte) : Prop :=
  file.length < 2 ∨ file.length % 2 = 1 ∨
    ∃ (origin : Word) (words : List Word), 65536 < origin.toNat + words.length ∧ file = imageFile origin words

end Sys2Proof.Machine

open Sys2Proof Sys2Proof.Machine

/-! ### Encoding -/

/-- For every instruction that is the decoding of some word, every operand at every value, decoding its encoding
gives it back (30_encoding.md R83, R84, R96). The bit layout is PRESUMED, log entry 1, the spec's decision D1 to D5;
the values encoded in ignored bits are the model's choice (log entry 10). -/
def Obligations.DecodeOfEncodeIsTheInstruction : Prop :=
  ∀ i : Instr, i.WellFormed → decode (encode i) = i

/-- Every word decodes to a well-formed instruction whose row of the decode table it selects, and the only other row
it can select is the JMP row (for RET) or the TRAP row (for a service) (30_encoding.md R82, R96). The bit layout is
PRESUMED, log entry 1, the spec's decision D1 to D4. -/
def Obligations.EveryWordSelectsItsRowAlone : Prop :=
  ∀ w : Word,
    (decode w).WellFormed ∧ w &&& (rowOf (decode w)).mask = (rowOf (decode w)).value ∧
    ∀ i : Instr, i.WellFormed → w &&& (rowOf i).mask = (rowOf i).value →
      rowOf i = rowOf (decode w) ∨
      (rowOf i = ⟨0xF000, 0xC000⟩ ∧ decode w = .ret) ∨
      (rowOf i = ⟨0xF000, 0xF000⟩ ∧ decode w ∈ [Instr.getc, .out, .puts, .inChar, .putsp, .halt])

/-- Flipping ignored bits of a word, any of them, does not change the instruction; and all other bits are kept: the
encoding of the decoding agrees with the word on every bit that is not ignored (30_encoding.md R98). That unused
bits are ignored is the spec's decision D6. -/
def Obligations.OnlyIgnoredBitsAreLost : Prop :=
  (∀ w flips : Word, decode (w ^^^ (flips &&& ignoredBits (decode w))) = decode w) ∧
  ∀ w : Word, encode (decode w) &&& ~~~ ignoredBits (decode w) = w &&& ~~~ ignoredBits (decode w)

/-- Words written out from the formats of 30_encoding.md R84 (several of them examples of the instruction rules)
decode to the instructions they stand for. A sanity statement. The bit layout is PRESUMED, log entry 1, the spec's
decision D1 to D5. -/
def Obligations.SampleWordsDecode : Prop :=
  decode 0b0000001111111101 = .br 0b001 0x1FD ∧
  decode 0b0001001010000011 = .addReg 1 2 3 ∧
  decode 0b0001001000111101 = .addImm 1 0 0x1D ∧
  decode 0b0101000001000010 = .andReg 0 1 2 ∧
  decode 0b0100100000000110 = .jsr 6 ∧
  decode 0b0100000010000000 = .jsrr 2 ∧
  decode 0b1100000010000000 = .jmp 2 ∧
  decode 0b1100000111000000 = .ret ∧
  decode 0b1010011000000001 = .ldi 3 1 ∧
  decode 0b0111000110111111 = .str 0 6 0x3F ∧
  decode 0b1000000000000000 = .rti ∧
  decode 0b1111000000100101 = .halt ∧
  decode 0b1111000000000000 = .trap 0

/-- Sign extension, for each of the four field widths: each bit of the result is the field's bit of that number, or
its top bit above the field; truncating gives the field back; and `zext_8` keeps the byte below eight 0 bits
(00_scope.md R14; 30_encoding.md R87). -/
def Obligations.SignAndZeroExtension : Prop :=
  (∀ (v : BitVec 5) (i : Nat), i < 16 → (sext v).getLsbD i = v.getLsbD (min i 4)) ∧
  (∀ (v : BitVec 6) (i : Nat), i < 16 → (sext v).getLsbD i = v.getLsbD (min i 5)) ∧
  (∀ (v : BitVec 9) (i : Nat), i < 16 → (sext v).getLsbD i = v.getLsbD (min i 8)) ∧
  (∀ (v : BitVec 11) (i : Nat), i < 16 → (sext v).getLsbD i = v.getLsbD (min i 10)) ∧
  (∀ v : BitVec 5, (sext v).extractLsb' 0 5 = v) ∧ (∀ v : BitVec 6, (sext v).extractLsb' 0 6 = v) ∧
  (∀ v : BitVec 9, (sext v).extractLsb' 0 9 = v) ∧ (∀ v : BitVec 11, (sext v).extractLsb' 0 11 = v) ∧
  (∀ b : Byte, zext8 b = 0#8 ++ b)

/-! ### The step and the run state -/

/-- While RUNNING, a step fetches the word at `pc` through the intercept, advances `pc` by one, and is exactly
`exec` of the instruction that word decodes to; away from 0xFE00 the word is the cell's (70_reset_and_hazards.md
R215; 10_state.md R27). That the fetch is intercepted is the spec's decision D15 (log entry 15). -/
def Obligations.StepRunsTheDecodedInstruction : Prop :=
  ∀ (s : State) (i : Instr), s.run = .running →
    (decode (memRead s.pc s).1 = i → step s = exec i ((memRead s.pc s).2.setPc (s.pc + 1))) ∧
    (s.pc ≠ 0xFE00 → decode (s.cell s.pc) = i → step s = exec i (s.setPc (s.pc + 1)))

/-- From HALTED and from ABORTED no step is taken: the step answers no next state (10_state.md R39). That each is a
named stop of the model is its convention (log entry 11). The third state ABORTED is the spec's decision D11. -/
def Obligations.NoStepFromHaltedOrAborted : Prop :=
  ∀ s : State,
    (s.run = .halted → step s = .fault .engineHalted) ∧ (s.run = .aborted → step s = .fault .engineAborted) ∧
    (s.run ≠ .running → ∀ t, step s ≠ .next t)

/-- A word placed where the next step fetches is the instruction that step runs (20_memory.md R55, R69). That the
model loads a program so is its choice (log entry 12). -/
def Obligations.PlacedWordIsRun : Prop :=
  ∀ (s : State) (w : Word), s.run = .running → s.pc ≠ 0xFE00 →
    step (s.withFetchWord 16 w.toNat) = exec (decode w) ((s.setCell s.pc w).setPc (s.pc + 1))

/-- A step that ends HALTED ran HALT: R7 and `pc` are the instruction's address plus one, and the output ends with
the halt notice (10_state.md R39; 70_reset_and_hazards.md R220, R221). The order of the notice is the spec's
decision D20. -/
def Obligations.HaltedOnlyByHalt : Prop :=
  ∀ s t : State, step s = .next t → t.run = .halted →
    decode (fetch s).1 = .halt ∧ t.pc = s.pc + 1 ∧ t.x 7 = t.pc ∧ ∃ before, t.out = before ++ s.params.haltNotice

/-- A step that ends ABORTED ran RTI or RES, with cause IllegalOpcode, or, under the policy `fatal`, a TRAP with an
unknown vector, with cause UnknownTrapVector; `pc` is the instruction's address plus one, and but for R7 in the
second case everything is as the fetch left it (60_exceptions.md R182, R183). ABORTED, its cause register and the
state at an abort are the spec's decision D11, the policy its decision D12. -/
def Obligations.AbortedOnlyByFatalInstructions : Prop :=
  ∀ s t : State, step s = .next t → t.run = .aborted →
    t.pc = s.pc + 1 ∧ t.cond = s.cond ∧ SameCells (fetch s).2 t ∧ SamePorts (fetch s).2 t ∧ t.params = s.params ∧
    ((t.abortCause = some .illegalOpcode ∧ t.abortCode = 1 ∧ (decode (fetch s).1 = .rti ∨ decode (fetch s).1 = .res) ∧
        SameRegs s t) ∨
      (t.abortCause = some .unknownTrapVector ∧ t.abortCode = 2 ∧ s.params.unknownTrapPolicy = .fatal ∧
        (∃ vect, vect ∉ definedVectors ∧ decode (fetch s).1 = .trap vect) ∧ t.x 7 = s.pc + 1 ∧
        ∀ r, r ≠ 7 → t.x r = s.x r))

/-! ### Memory and the keyboard -/

/-- `MemRead`, whole: any address but 0xFE00 is a plain read; at 0xFE00, when `InAvail()` finds no byte the answer
is 0, KBSR is 0 and nothing else changes but the poll itself; when it finds a byte the answer is 0x8000, KBSR is
0x8000, KBDR is the byte zero-extended, the byte leaves `IN`, and nothing else changes (20_memory.md R53, R54). What
is in `IN` at the poll is what was there and the batch that has arrived (log entry 5). That a poll consumes the byte
is the spec's decision D14 (log entry 15), the schedule of arrivals the model's choice (log entry 5). -/
def Obligations.MemReadInterceptsKeyboardStatusOnly : Prop :=
  (∀ (s : State) (a : Word), a ≠ 0xFE00 → memRead a s = (s.cell a, s)) ∧
  (∀ s : State, s.arrive.inQueue = [] →
    ∃ t, memRead 0xFE00 s = (0x0000, t) ∧ t.cell 0xFE00 = 0x0000 ∧ (∀ c, c ≠ 0xFE00 → t.cell c = s.cell c) ∧
      SameRegs s t ∧ t.pc = s.pc ∧ t.cond = s.cond ∧ SameControl s t ∧ t.inQueue = [] ∧
      t.arrivals = s.arrive.arrivals ∧ t.refill = s.refill ∧ t.portLog = s.portLog ++ [.polled false]) ∧
  (∀ (s : State) (b : Byte) (rest : List Byte), s.arrive.inQueue = b :: rest →
    ∃ t, memRead 0xFE00 s = (0x8000, t) ∧ t.cell 0xFE00 = 0x8000 ∧ t.cell 0xFE02 = 0#8 ++ b ∧
      (∀ c, c ≠ 0xFE00 → c ≠ 0xFE02 → t.cell c = s.cell c) ∧
      SameRegs s t ∧ t.pc = s.pc ∧ t.cond = s.cond ∧ SameControl s t ∧ t.inQueue = rest ∧
      t.arrivals = s.arrive.arrivals ∧ t.refill = s.refill ∧ t.portLog = s.portLog ++ [.polled true, .took b])

/-- `MemWrite` is a plain store at every address, 0xFE00 and 0xFE02 too (20_memory.md R56). That a write to 0xFE00
or 0xFE02 is plain is the spec's decision D13 (log entry 15). -/
def Obligations.MemWriteIsAPlainStore : Prop :=
  ∀ (s : State) (a v : Word), OnlyCellWritten a v s (memWrite a v s)

/-- What a store to a keyboard register is read back as. A value stored to KBSR never is: the next read of KBSR
answers what it would have answered without the store, 0x8000 or 0x0000. A value stored to KBDR is read back after
any list of reads of any addresses, KBSR among them, none of which finds a key; and the next poll that finds a key
overwrites it by the byte (20_memory.md R57). It rests on the spec's decisions D13 and D14 (log entry 15). -/
def Obligations.StoredKeyboardValues : Prop :=
  (∀ (s : State) (v : Word),
    (memRead 0xFE00 (memWrite 0xFE00 v s)).1 = (memRead 0xFE00 s).1 ∧
      ((memRead 0xFE00 s).1 = 0x8000 ∨ (memRead 0xFE00 s).1 = 0x0000)) ∧
  (∀ (s : State) (v : Word) (as : List Word), FindsNoKey as (memWrite 0xFE02 v s) →
    memRead 0xFE02 (readAll as (memWrite 0xFE02 v s)) = (v, readAll as (memWrite 0xFE02 v s))) ∧
  (∀ (s : State) (v : Word) (b : Byte) (rest : List Byte), s.arrive.inQueue = b :: rest →
    (memRead 0xFE02 (memRead 0xFE00 (memWrite 0xFE02 v s)).2).1 = 0#8 ++ b)

/-- Over a whole step, a cell other than KBSR and KBDR changes only if the instruction is ST, STI or STR
(10_state.md R38). -/
def Obligations.OnlyStoresWritePlainCells : Prop :=
  ∀ s t : State, step s = .next t → ∀ a, a ≠ 0xFE00 → a ≠ 0xFE02 → t.cell a ≠ s.cell a →
    isStore (decode (fetch s).1) = true

/-- The word ST writes into the very next cell is the instruction the next step runs (20_memory.md R69; 43_store.md
R140). -/
def Obligations.StoredInstructionIsFetched : Prop :=
  ∀ (s : State) (sr : Reg), s.run = .running → s.pc ≠ 0xFE00 →
    ∃ t, exec (.st sr 0) s = .next t ∧ step t = exec (decode (s.x sr)) (t.setPc (s.pc + 1))

/-- For every step, completed or not, the bytes of the input stream (those in `IN`, those of the schedule, and those
of the refill for each time the schedule starts again from it) are the bytes the step took, in order, followed by
the stream that is left: no byte is lost, repeated or reordered, whether taken by a keyboard poll, GETC or IN
(00_scope.md R7; 10_state.md R42). The queue and the consuming poll are the spec's decisions D23 and D14; the
schedule is the model's (log entry 5). -/
def Obligations.EachInputByteIsTakenOnceInOrder : Prop :=
  ∀ s t : State, shown (step s) = some t →
    ∃ es n, t.portLog = s.portLog ++ es ∧
      s.inQueue ++ s.arrivals.flatten ++ (List.replicate n s.refill.flatten).flatten =
        es.filterMap PortEvent.taken ++ (t.inQueue ++ t.arrivals.flatten)

/-- The port log and the output only grow: a step, completed or not, appends to them and changes nothing already
there, so what was written before a wait or in a string without end is in the outcome (00_scope.md R6, R8). The log
is the model's own field (log entry 7); that a step which never completes shows the state it has reached is its
choice (log entries 8 and 13). -/
def Obligations.OutputOnlyGrows : Prop :=
  ∀ s t : State, shown (step s) = some t →
    (∃ es, t.portLog = s.portLog ++ es) ∧ ∃ bytes, t.out = s.out ++ bytes

/-- The input environment may do anything at any moment (00_scope.md R7). Between steps it appends any bytes to the
tail of `IN` and changes nothing else of the block. Inside a step, before an `InAvail`, the next batch of the
schedule is appended to `IN`, and a schedule that is used up starts again from the refill. So for every endless
sequence of answers there is an environment that gives them: with `IN` empty, the read of KBSR at moment `k` finds
the byte `ans k`, or none where `ans k` is none. The queue is the spec's decision D23, the consuming poll its
decision D14; the schedule and its refill are the model's choice (log entry 5). -/
def Obligations.InputMayArriveAtAnyMoment : Prop :=
  (∀ (s : State) (e : Supply), (s.supply e).inQueue = s.inQueue ++ e.now ∧ (s.supply e).arrivals = e.arrivals ∧
    (s.supply e).refill = e.refill ∧ SameRegs s (s.supply e) ∧ (s.supply e).pc = s.pc ∧ (s.supply e).cond = s.cond ∧
    SameCells s (s.supply e) ∧ SameControl s (s.supply e) ∧ (s.supply e).portLog = s.portLog) ∧
  (∀ (s : State) (batch : List Byte) (later : List (List Byte)),
    s.arrivals = batch :: later ∨ s.arrivals = [] ∧ s.refill = batch :: later →
    s.arrive = { s with inQueue := s.inQueue ++ batch, arrivals := later }) ∧
  (∀ s : State, s.arrivals = [] → s.refill = [] → s.arrive = s) ∧
  (∀ ans : Nat → Option Byte, ∃ env : Nat → Supply, ∀ (k : Nat) (s : State), s.inQueue = [] →
    ∃ t, memRead 0xFE00 (s.supply (env k)) = (if ans k = none then 0x0000 else 0x8000, t) ∧ t.inQueue = [] ∧
      ∀ b, ans k = some b → t.cell 0xFE02 = 0#8 ++ b)

/-! ### Flags -/

/-- `SetCC(r)`: ZERO for 0x0000, NEGATIVE if bit 15 is 1, else POSITIVE, of what register `r` holds now; nothing
else changes (10_state.md R30). -/
def Obligations.FlagRule : Prop :=
  ∀ (r : Reg) (s : State),
    IsFlagOf (s.x r) (setCC r s).cond ∧ SameRegs s (setCC r s) ∧ (setCC r s).pc = s.pc ∧ SameCells s (setCC r s) ∧
      SamePorts s (setCC r s) ∧ SameControl s (setCC r s)

/-- The instructions that write `COND` write the flag of their destination register's final value (R0's, for GETC
and IN), and no other instruction changes `COND` (10_state.md R31, R32). -/
def Obligations.FlagsAreWrittenByTheListedInstructionsOnly : Prop :=
  ∀ (i : Instr) (s t : State), exec i s = .next t →
    (∀ r, flagSource i = some r → IsFlagOf (t.x r) t.cond) ∧ (flagSource i = none → t.cond = s.cond)

/-- No instruction but BR reads `COND`: with any other flag in its place, the result (the next state, or the state
reached by an instruction that does not complete) is the same but for `COND`, and the `COND` of an instruction that
writes it is the same too (10_state.md R33). -/
def Obligations.OnlyBranchesReadTheFlags : Prop :=
  ∀ (i : Instr) (s : State) (c : Cond), (∀ nzp off, i ≠ .br nzp off) →
    AlikeButCond (exec i s) (exec i { s with cond := c }) ∧
    ∀ t u, exec i s = .next t → exec i { s with cond := c } = .next u → flagSource i ≠ none → t.cond = u.cond

/-! ### Registers and program counter -/

/-- An instruction changes no register but its DR, R7 for JSR, JSRR and every TRAP, and R0 for GETC and IN
(10_state.md R22, R23, R24). -/
def Obligations.RegistersWrittenAreTheListedOnes : Prop :=
  ∀ (i : Instr) (s t : State), exec i s = .next t → ∀ r, r ∉ writtenRegs i → t.x r = s.x r

/-- An instruction that is no control transfer leaves `pc` at the instruction's address plus one (10_state.md R27). -/
def Obligations.OnlyControlTransfersMoveThePc : Prop :=
  ∀ (i : Instr) (s t : State), isJump i = false → exec i s = .next t → t.pc = s.pc

/-- Every instruction but GETC, IN, PUTS and PUTSP completes in every state: no access faults, no arithmetic traps,
no instruction is privileged (20_memory.md R52; 60_exceptions.md R182, R195). For RTI, RES and an unknown vector the
next state is the aborted one, the spec's decision D11. -/
def Obligations.NoInstructionFaultsButWaitsAndStrings : Prop :=
  ∀ (i : Instr) (s : State), mayNotComplete i = false → ∃ t, exec i s = .next t

/-! ### ALU -/

/-- ADD, both modes: the words of each format are that instruction, whatever the ignored bits; the destination gets
the sum modulo 2^16, `COND` its flag, and nothing else changes (40_alu.md R110, R111). The words' bit layout is
PRESUMED, log entry 1, the spec's decisions D1 to D3. -/
def Obligations.AddWritesTheSum : Prop :=
  (∀ (d a b : BitVec 3) (ign : BitVec 2),
    decode (0b0001#4 ++ d ++ a ++ 0b0#1 ++ ign ++ b) = .addReg d.toFin a.toFin b.toFin) ∧
  (∀ (d a : BitVec 3) (imm : BitVec 5), decode (0b0001#4 ++ d ++ a ++ 0b1#1 ++ imm) = .addImm d.toFin a.toFin imm) ∧
  (∀ (dr sr1 sr2 : Reg) (s : State),
    ∃ t, exec (.addReg dr sr1 sr2) s = .next t ∧ OnlyResultWritten dr (s.x sr1 + s.x sr2) s t) ∧
  (∀ (dr sr1 : Reg) (imm : BitVec 5) (s : State),
    ∃ t, exec (.addImm dr sr1 imm) s = .next t ∧ OnlyResultWritten dr (s.x sr1 + imm.signExtend 16) s t)

/-- AND, both modes, the immediate sign-extended: encodings, result, flag, and nothing else changes (40_alu.md R112,
R113). The words' bit layout is PRESUMED, log entry 1, the spec's decisions D1 to D3. -/
def Obligations.AndWritesTheConjunction : Prop :=
  (∀ (d a b : BitVec 3) (ign : BitVec 2),
    decode (0b0101#4 ++ d ++ a ++ 0b0#1 ++ ign ++ b) = .andReg d.toFin a.toFin b.toFin) ∧
  (∀ (d a : BitVec 3) (imm : BitVec 5), decode (0b0101#4 ++ d ++ a ++ 0b1#1 ++ imm) = .andImm d.toFin a.toFin imm) ∧
  (∀ (dr sr1 sr2 : Reg) (s : State),
    ∃ t, exec (.andReg dr sr1 sr2) s = .next t ∧ OnlyResultWritten dr (s.x sr1 &&& s.x sr2) s t) ∧
  (∀ (dr sr1 : Reg) (imm : BitVec 5) (s : State),
    ∃ t, exec (.andImm dr sr1 imm) s = .next t ∧ OnlyResultWritten dr (s.x sr1 &&& imm.signExtend 16) s t)

/-- NOT: its words, the complement in the destination, its flag, and nothing else changes (40_alu.md R114). The
words' bit layout is PRESUMED, log entry 1, the spec's decisions D1 and D2. -/
def Obligations.NotWritesTheComplement : Prop :=
  (∀ (d a : BitVec 3) (ign : BitVec 6), decode (0b1001#4 ++ d ++ a ++ ign) = .not d.toFin a.toFin) ∧
  (∀ (dr sr : Reg) (s : State), ∃ t, exec (.not dr sr) s = .next t ∧ OnlyResultWritten dr (~~~ s.x sr) s t)

/-! ### Loads -/

/-- LEA: its words, the address itself in the destination, its flag, no access, and nothing else changes (42_load.md
R133). The words' bit layout is PRESUMED, log entry 1, the spec's decisions D1 and D2. -/
def Obligations.LeaWritesTheAddress : Prop :=
  (∀ (d : BitVec 3) (off : BitVec 9), decode (0b1110#4 ++ d ++ off) = .lea d.toFin off) ∧
  (∀ (dr : Reg) (off : BitVec 9) (s : State),
    ∃ t, exec (.lea dr off) s = .next t ∧ OnlyResultWritten dr (s.pc + off.signExtend 16) s t)

/-- LD and LDR: their words; the destination gets the word `MemRead` answers at the effective address and `COND` its
flag; what the read does beside (a keyboard poll at 0xFE00, nothing elsewhere) is all else that changes (42_load.md
R130, R132). The words' bit layout is PRESUMED, log entry 1, the spec's decisions D1 and D2; that the read is
intercepted is its decision D15, log entry 15. -/
def Obligations.LoadsWriteTheWordRead : Prop :=
  (∀ (d : BitVec 3) (off : BitVec 9), decode (0b0010#4 ++ d ++ off) = .ld d.toFin off) ∧
  (∀ (d b : BitVec 3) (off : BitVec 6), decode (0b0110#4 ++ d ++ b ++ off) = .ldr d.toFin b.toFin off) ∧
  (∀ (dr : Reg) (off : BitVec 9) (s : State),
    ∃ t, exec (.ld dr off) s = .next t ∧
      OnlyResultWritten dr (memRead (s.pc + off.signExtend 16) s).1 (memRead (s.pc + off.signExtend 16) s).2 t) ∧
  (∀ (dr base : Reg) (off : BitVec 6) (s : State),
    ∃ t, exec (.ldr dr base off) s = .next t ∧
      OnlyResultWritten dr (memRead (s.x base + off.signExtend 16) s).1 (memRead (s.x base + off.signExtend 16) s).2 t)

/-- LDI: its words; two reads in order, the pointer and then the data, and the destination gets the second
(42_load.md R131). The words' bit layout is PRESUMED, log entry 1, the spec's decisions D1 and D2; that both reads
are intercepted is its decision D15, log entry 15. -/
def Obligations.LoadIndirectReadsTwice : Prop :=
  (∀ (d : BitVec 3) (off : BitVec 9), decode (0b1010#4 ++ d ++ off) = .ldi d.toFin off) ∧
  (∀ (dr : Reg) (off : BitVec 9) (s s₁ s₂ : State) (ea v : Word),
    memRead (s.pc + off.signExtend 16) s = (ea, s₁) → memRead ea s₁ = (v, s₂) →
    ∃ t, exec (.ldi dr off) s = .next t ∧ OnlyResultWritten dr v s₂ t)

/-- LD, LDI, LDR and LEA in one frame, over the state before: no register but the destination, no `pc`, no cell but
KBSR and KBDR, no output, no `RUN`; and a load none of whose reads is at KBSR's address, LEA always, leaves every
cell and the ports as they were (42_load.md R136). -/
def Obligations.LoadFrame : Prop :=
  ∀ (i : Instr) (dr : Reg) (s t : State),
    ((∃ off, i = .ld dr off) ∨ (∃ off, i = .ldi dr off) ∨ (∃ base off, i = .ldr dr base off) ∨ ∃ off, i = .lea dr off) →
    exec i s = .next t →
    (∀ r, r ≠ dr → t.x r = s.x r) ∧ t.pc = s.pc ∧ SameControl s t ∧ t.out = s.out ∧ t.refill = s.refill ∧
      (∀ a, a ≠ 0xFE00 → a ≠ 0xFE02 → t.cell a = s.cell a) ∧
      (0xFE00 ∉ loadAddresses i s → SameCells s t ∧ SamePorts s t)

/-! ### Stores -/

/-- ST and STR: their words; the cell at the effective address gets the source register's word, and nothing else
changes, 0xFE00 and 0xFE02 included (43_store.md R140, R142). The words' bit layout is PRESUMED, log entry 1, the
spec's decisions D1 and D2; that a store to a keyboard register is plain is its decision D13, log entry 15. -/
def Obligations.StoresWriteOneCell : Prop :=
  (∀ (r : BitVec 3) (off : BitVec 9), decode (0b0011#4 ++ r ++ off) = .st r.toFin off) ∧
  (∀ (r b : BitVec 3) (off : BitVec 6), decode (0b0111#4 ++ r ++ b ++ off) = .str r.toFin b.toFin off) ∧
  (∀ (sr : Reg) (off : BitVec 9) (s : State),
    ∃ t, exec (.st sr off) s = .next t ∧ OnlyCellWritten (s.pc + off.signExtend 16) (s.x sr) s t) ∧
  (∀ (sr base : Reg) (off : BitVec 6) (s : State),
    ∃ t, exec (.str sr base off) s = .next t ∧ OnlyCellWritten (s.x base + off.signExtend 16) (s.x sr) s t)

/-- STI: its words; the pointer is read through the intercept, then the cell it names gets the source register's
word, and nothing else changes after that read (43_store.md R141). The words' bit layout is PRESUMED, log entry 1,
the spec's decisions D1 and D2; that the pointer read is intercepted is its decision D15 and that a store to a
keyboard register is plain its decision D13, log entry 15. -/
def Obligations.StoreIndirectWritesWhereThePointerSays : Prop :=
  (∀ (r : BitVec 3) (off : BitVec 9), decode (0b1011#4 ++ r ++ off) = .sti r.toFin off) ∧
  (∀ (sr : Reg) (off : BitVec 9) (s s₁ : State) (ea : Word),
    memRead (s.pc + off.signExtend 16) s = (ea, s₁) →
    ∃ t, exec (.sti sr off) s = .next t ∧ OnlyCellWritten ea (s.x sr) s₁ t)

/-! ### Control transfers -/

/-- BR: its words; taken exactly when the mask meets the flag, bit 11 NEGATIVE, bit 10 ZERO, bit 9 POSITIVE, to `pc`
plus the offset, else `pc` stays; nothing else changes (41_control.md R120). The words' bit layout is PRESUMED, log
entry 1, the spec's decisions D1, D2 and, for which mask bit tests which flag, D5. -/
def Obligations.BranchTakenByMask : Prop :=
  (∀ (n z p : BitVec 1) (off : BitVec 9), decode (0b0000#4 ++ n ++ z ++ p ++ off) = .br (n ++ z ++ p) off) ∧
  (∀ (n z p : BitVec 1) (off : BitVec 9) (s : State),
    ∃ t, exec (.br (n ++ z ++ p) off) s = .next t ∧
      ((s.cond = .negative ∧ n = 1 ∨ s.cond = .zero ∧ z = 1 ∨ s.cond = .positive ∧ p = 1) →
        OnlyJumped (s.pc + off.signExtend 16) none s t) ∧
      (¬ (s.cond = .negative ∧ n = 1 ∨ s.cond = .zero ∧ z = 1 ∨ s.cond = .positive ∧ p = 1) →
        OnlyJumped s.pc none s t))

/-- BR with mask 000 changes nothing and BR with mask 111 always branches (30_encoding.md R99). -/
def Obligations.EmptyMaskIsNoOpAndFullMaskAlwaysBranches : Prop :=
  ∀ (off : BitVec 9) (s : State),
    exec (.br 0b000 off) s = .next s ∧ exec (.br 0b111 off) s = .next (s.setPc (s.pc + off.signExtend 16))

/-- JMP and RET: their words, whatever the ignored bits; `pc` gets the base register, R7 for RET, no link, and
nothing else changes (41_control.md R121, R122). The words' bit layout is PRESUMED, log entry 1, the spec's
decisions D1 and D2; two spellings of RET are the model's choice, log entry 9. -/
def Obligations.JumpGoesToTheRegister : Prop :=
  (∀ (ign₁ b : BitVec 3) (ign₂ : BitVec 6),
    decode (0b1100#4 ++ ign₁ ++ b ++ ign₂) = if b = 7 then .ret else .jmp b.toFin) ∧
  (∀ (base : Reg) (s : State), ∃ t, exec (.jmp base) s = .next t ∧ OnlyJumped (s.x base) none s t) ∧
  (∀ s : State, (∃ t, exec .ret s = .next t ∧ OnlyJumped (s.x 7) none s t) ∧ exec .ret s = exec (.jmp 7) s)

/-- JSR: its words; R7 gets the address after the JSR, `pc` that plus the offset, and nothing else changes
(41_control.md R123). The words' bit layout is PRESUMED, log entry 1, the spec's decisions D1, D2 and D4. -/
def Obligations.JsrLinksAndJumps : Prop :=
  (∀ off : BitVec 11, decode (0b01001#5 ++ off) = .jsr off) ∧
  (∀ (off : BitVec 11) (s : State),
    ∃ t, exec (.jsr off) s = .next t ∧ OnlyJumped (s.pc + off.signExtend 16) (some s.pc) s t)

/-- JSRR: its words, whatever the ignored bits; R7 gets the address after the JSRR first, then `pc` the base
register, so that `JSRR R7` goes to the next instruction; nothing else changes (41_control.md R124). The words' bit
layout is PRESUMED, log entry 1, the spec's decisions D1, D2 and D4. -/
def Obligations.JsrrLinksBeforeItReadsTheBase : Prop :=
  (∀ (ign₁ : BitVec 2) (b : BitVec 3) (ign₂ : BitVec 6), decode (0b01000#5 ++ ign₁ ++ b ++ ign₂) = .jsrr b.toFin) ∧
  (∀ (base : Reg) (s : State), base ≠ 7 →
    ∃ t, exec (.jsrr base) s = .next t ∧ OnlyJumped (s.x base) (some s.pc) s t) ∧
  (∀ s : State, ∃ t, exec (.jsrr 7) s = .next t ∧ OnlyJumped s.pc (some s.pc) s t)

/-! ### Traps -/

/-- TRAP, for every vector, does what the service of that vector does; the words of a TRAP, whatever bits 11:8, are
the service's instruction or, for any other vector, TRAP (44_trap.md R150; 30_encoding.md R101). The bit layout is
PRESUMED, log entry 1, the spec's decision D1 and D2. Two spellings of one word are the model's choice (log entry
9). -/
def Obligations.TrapDispatchesByVector : Prop :=
  (∀ (ign : BitVec 4) (v : BitVec 8), exec (decode (0b1111#4 ++ ign ++ v)) = exec (.trap v)) ∧
  (∀ (ign : BitVec 4) (v : BitVec 8), v ∉ definedVectors → decode (0b1111#4 ++ ign ++ v) = .trap v) ∧
  exec (.trap 0x20) = exec .getc ∧ exec (.trap 0x21) = exec .out ∧ exec (.trap 0x22) = exec .puts ∧
  exec (.trap 0x23) = exec .inChar ∧ exec (.trap 0x24) = exec .putsp ∧ exec (.trap 0x25) = exec .halt

/-- GETC with a byte at the head of `IN`, or arriving later while it waits, by the schedule or, when the schedule
brings only empty batches, by the refill: the byte, zero-extended, in R0, its flag, the link in R7, one `InRead` and
no other port operation, and nothing else changes (44_trap.md R152). That GETC waits is the spec's decision D16; the
schedule of arrivals is the model's (log entry 5). -/
def Obligations.GetcReadsOneByte : Prop :=
  (∀ (s : State) (b : Byte) (rest : List Byte), s.inQueue = b :: rest →
    ∃ t, exec .getc s = .next t ∧ OnlyCharRead b rest s.arrivals [.took b] s t) ∧
  (∀ (s : State) (n : Nat) (b : Byte) (rest : List Byte) (later : List (List Byte)),
    s.inQueue = [] → s.arrivals = List.replicate n [] ++ (b :: rest) :: later →
    ∃ t, exec .getc s = .next t ∧ OnlyCharRead b rest later [.took b] s t) ∧
  (∀ (s : State) (n : Nat) (b : Byte) (rest : List Byte) (later : List (List Byte)),
    s.inQueue = [] → (∀ batch ∈ s.arrivals, batch = []) → s.refill = List.replicate n [] ++ (b :: rest) :: later →
    ∃ t, exec .getc s = .next t ∧ OnlyCharRead b rest later [.took b] s t)

/-- IN with a byte at the head of `IN`, or arriving later while it waits, by the schedule or, when the schedule
brings only empty batches, by the refill: the prompt's bytes are written, then the byte is read, then written once
as the echo, in this order, R0 and the flags are set and the link is in R7; nothing else changes (44_trap.md R155).
The prompt is the spec's decision D19; the schedule of arrivals is the model's (log entry 5). -/
def Obligations.InPromptsReadsAndEchoes : Prop :=
  (∀ (s : State) (b : Byte) (rest : List Byte), s.inQueue = b :: rest →
    ∃ t, exec .inChar s = .next t ∧ OnlyCharRead b rest s.arrivals (s.params.inPrompt.map .wrote ++ [.took b, .wrote b]) s t) ∧
  (∀ (s : State) (n : Nat) (b : Byte) (rest : List Byte) (later : List (List Byte)),
    s.inQueue = [] → s.arrivals = List.replicate n [] ++ (b :: rest) :: later →
    ∃ t, exec .inChar s = .next t ∧ OnlyCharRead b rest later (s.params.inPrompt.map .wrote ++ [.took b, .wrote b]) s t) ∧
  (∀ (s : State) (n : Nat) (b : Byte) (rest : List Byte) (later : List (List Byte)),
    s.inQueue = [] → (∀ batch ∈ s.arrivals, batch = []) → s.refill = List.replicate n [] ++ (b :: rest) :: later →
    ∃ t, exec .inChar s = .next t ∧ OnlyCharRead b rest later (s.params.inPrompt.map .wrote ++ [.took b, .wrote b]) s t)

/-- GETC and IN take no step to a next state when no byte ever arrives: they are stuck (60_exceptions.md R190), and
the outcome shows the state in which they wait: the link written, for IN the prompt written before the wait
(44_trap.md R155), nothing else changed but that the empty schedule is used up. That no end of input exists is the
spec's decision D17; that the stuck step is a named stop is the model's (log entry 13). -/
def Obligations.InputServicesHoldWithoutInput : Prop :=
  ∀ s : State, s.inQueue = [] → (∀ batch ∈ s.arrivals, batch = []) → (∀ batch ∈ s.refill, batch = []) →
    (∃ w, exec .getc s = .fault (.inputHold w) ∧ OnlyLinkedAndWrote [] { s with arrivals := [] } w) ∧
    ∃ w, exec .inChar s = .fault (.inputHold w) ∧
      OnlyLinkedAndWrote (s.params.inPrompt.map .wrote) { s with arrivals := [] } w ∧ w.out = s.out ++ s.params.inPrompt

/-- OUT writes the low 8 bits of R0, once; R7 gets the link, and nothing else changes (44_trap.md R153). The words'
bit layout is PRESUMED, log entry 1, the spec's decisions D1 and D2. -/
def Obligations.OutWritesTheLowByte : Prop :=
  (∀ ign : BitVec 4, decode (0b1111#4 ++ ign ++ 0x21#8) = .out) ∧
  (∀ s : State, ∃ t, exec .out s = .next t ∧ OnlyLinkedAndWrote [.wrote ((s.x 0).extractLsb' 0 8)] s t)

/-- PUTS. A terminated string that does not cross KBSR: the low byte of each word is written in address order,
wrapping at 0xFFFF; R7 gets the link, and nothing else changes. A string in general, KBSR crossed or not: PUTS
completes exactly if reads by `MemRead` from R0 on, each at the next address after the characters of the one before
are written, come to a zero word; then it writes the low byte of each word read, and leaves the state of those
reads: R7 the link, and no other register, `pc`, `COND`, cell but KBSR and KBDR, or `RUN` changed (44_trap.md R154).
R0 is read after the link write, and it is not R7. That the character is the low byte is the spec's decision D18,
that the reads are intercepted its decision D15 (log entry 15). -/
def Obligations.PutsWritesTheString : Prop :=
  (∀ (s : State) (ws : List Word), HoldsString s (s.x 0) ws →
    ∃ t, exec .puts s = .next t ∧ OnlyLinkedAndWrote ((ws.flatMap lowByteOf).map .wrote) s t ∧
      t.out = s.out ++ ws.flatMap lowByteOf) ∧
  (∀ (s : State) (ws : List Word) (t : State), ReadsString lowByteOf (s.x 0) (linkR7 s) ws t →
    exec .puts s = .next t ∧ t.out = s.out ++ ws.flatMap lowByteOf ∧ t.x 7 = s.pc ∧ (∀ r, r ≠ 7 → t.x r = s.x r) ∧
      t.pc = s.pc ∧ t.cond = s.cond ∧ (∀ a, a ≠ 0xFE00 → a ≠ 0xFE02 → t.cell a = s.cell a) ∧ SameControl s t) ∧
  (∀ s t : State, exec .puts s = .next t → ∃ ws, ReadsString lowByteOf (s.x 0) (linkR7 s) ws t)

/-- PUTSP. A terminated string that does not cross KBSR: for each word in address order the low byte is written,
always, then the high byte if it is not 0x00; R7 gets the link, and nothing else changes. A string in general, KBSR
crossed or not: PUTSP completes exactly if reads by `MemRead` from R0 on, each at the next address after the
characters of the one before are written, come to a zero word; then it writes those bytes of each word read, and
leaves the state of those reads: R7 the link, and no other register, `pc`, `COND`, cell but KBSR and KBDR, or `RUN`
changed (44_trap.md R156). That the reads are intercepted is the spec's decision D15 (log entry 15). -/
def Obligations.PutspWritesThePackedString : Prop :=
  (∀ (s : State) (ws : List Word), HoldsString s (s.x 0) ws →
    ∃ t, exec .putsp s = .next t ∧ OnlyLinkedAndWrote ((ws.flatMap packedBytesOf).map .wrote) s t ∧
      t.out = s.out ++ ws.flatMap packedBytesOf) ∧
  (∀ (s : State) (ws : List Word) (t : State), ReadsString packedBytesOf (s.x 0) (linkR7 s) ws t →
    exec .putsp s = .next t ∧ t.out = s.out ++ ws.flatMap packedBytesOf ∧ t.x 7 = s.pc ∧ (∀ r, r ≠ 7 → t.x r = s.x r) ∧
      t.pc = s.pc ∧ t.cond = s.cond ∧ (∀ a, a ≠ 0xFE00 → a ≠ 0xFE02 → t.cell a = s.cell a) ∧ SameControl s t) ∧
  (∀ s t : State, exec .putsp s = .next t → ∃ ws, ReadsString packedBytesOf (s.x 0) (linkR7 s) ws t)

/-- In every state whose input runs out (after the schedule no more bytes, or rounds of the refill that bring fewer
bytes than batches), PUTS and PUTSP end, whatever memory holds: a lap of the address space reads KBSR, and the poll
that finds no byte left reads 0x0000 and ends the string. Only an input that never runs out can keep a string
service from ending (44_trap.md R154, R156; 20_memory.md R53; 60_exceptions.md R190). It rests on the spec's
decisions D14 and D15 and on the model's bound (log entry 8). -/
def Obligations.StringServicesEndWhenInputRunsOut : Prop :=
  ∀ s : State, (∀ batch ∈ s.refill, batch = []) ∨ s.refill.flatten.length < s.refill.length →
    (∃ t, exec .puts s = .next t) ∧ ∃ t, exec .putsp s = .next t

/-- With an input that never runs out and holds no zero byte (no batch to come is empty), and no cell that reads as
zero, PUTS and PUTSP never end: the step never completes (60_exceptions.md R190 (b); 44_trap.md R154, R156). That
this is a named stop of the model is its convention (log entry 8). -/
def Obligations.StringServicesDivergeOnEndlessInput : Prop :=
  ∀ s : State, (∀ a, a ≠ 0xFE00 → s.cell a ≠ 0x0000) → (∀ batch ∈ s.arrivals, batch ≠ [] ∧ (0 : Byte) ∉ batch) →
    (∀ batch ∈ s.refill, batch ≠ [] ∧ (0 : Byte) ∉ batch) → s.refill ≠ [] → (0 : Byte) ∉ s.inQueue →
    (∃ a u, exec .puts s = .fault (.stringNeverEnds a u)) ∧ ∃ a u, exec .putsp s = .fault (.stringNeverEnds a u)

/-- The stop of a string service is exact: when PUTS or PUTSP answers `stringNeverEnds a u`, the loop of reads
reaches no end after any number of reads, so the bound `stringFuel` cuts off no string that would end; and `a` and
`u` are where the loop stands after that many reads, every further stretch of it being the loop from there
(60_exceptions.md R190 (b); log entry 8). -/
def Obligations.StringStopMeansNeverEnds : Prop :=
  ∀ (s : State) (a : Word) (u : State),
    (exec .puts s = .fault (.stringNeverEnds a u) →
      (∀ n, ∃ p, putString putsChars n (s.x 0) (linkR7 s) = .error p) ∧
      ∀ n, putString putsChars (stringFuel (linkR7 s) + n) (s.x 0) (linkR7 s) = putString putsChars n a u) ∧
    (exec .putsp s = .fault (.stringNeverEnds a u) →
      (∀ n, ∃ p, putString putspChars n (s.x 0) (linkR7 s) = .error p) ∧
      ∀ n, putString putspChars (stringFuel (linkR7 s) + n) (s.x 0) (linkR7 s) = putString putspChars n a u)

/-- HALT writes the notice, sets `RUN` to HALTED and R7 to the link, and changes nothing else (44_trap.md R157). The
notice and the order are the spec's decision D20. -/
def Obligations.HaltWritesTheNoticeAndHalts : Prop :=
  ∀ s : State, ∃ t, exec .halt s = .next t ∧ t.run = .halted ∧
    t.portLog = s.portLog ++ s.params.haltNotice.map .wrote ∧ t.out = s.out ++ s.params.haltNotice ∧
    t.x 7 = s.pc ∧ (∀ r, r ≠ 7 → t.x r = s.x r) ∧ t.pc = s.pc ∧ t.cond = s.cond ∧ SameCells s t ∧
    t.inQueue = s.inQueue ∧ t.arrivals = s.arrivals ∧ t.refill = s.refill ∧ t.abortCause = s.abortCause ∧
    t.params = s.params

/-- A TRAP with an unknown vector writes the link in every case; under the policy `noop` nothing more, under `fatal`
it then aborts with cause UnknownTrapVector (44_trap.md R158). The policy is the spec's decision D12, the aborted
state its decision D11. -/
def Obligations.UnknownTrapByPolicy : Prop :=
  ∀ (s : State) (vect : BitVec 8), vect ∉ definedVectors →
    ∃ t, exec (.trap vect) s = .next t ∧
      (s.params.unknownTrapPolicy = .noop → OnlyLinkedAndWrote [] s t) ∧
      (s.params.unknownTrapPolicy = .fatal →
        OnlyAborted .unknownTrapVector (s.setX 7 s.pc) t ∧ t.x 7 = s.pc ∧ t.abortCode = 2)

/-- What a completed TRAP, with any vector, can have changed: R7, always to the link; R0 and `COND` for GETC and IN
only; the port log; `IN`; `RUN` for HALT only (or for an unknown vector, to ABORTED); the keyboard cells; never
`pc`, any other register, any other cell or the parameters (44_trap.md R151). -/
def Obligations.TrapFrame : Prop :=
  ∀ (i : Instr) (s t : State), i.WellFormed → isTrap i = true → exec i s = .next t →
    t.x 7 = s.pc ∧ t.pc = s.pc ∧ (∀ r, r ≠ 0 → r ≠ 7 → t.x r = s.x r) ∧
      (i ≠ .getc → i ≠ .inChar → t.x 0 = s.x 0 ∧ t.cond = s.cond) ∧
      (∀ a, a ≠ 0xFE00 → a ≠ 0xFE02 → t.cell a = s.cell a) ∧
      (i ≠ .puts → i ≠ .putsp → SameCells s t) ∧
      (i = .halt ∨ (∃ vect, i = .trap vect) ∨ (t.run = s.run ∧ t.abortCause = s.abortCause)) ∧
      t.refill = s.refill ∧ t.params = s.params

/-! ### Fatal opcodes -/

/-- RTI and RES, every word of the two opcodes, abort with cause IllegalOpcode and change nothing else
(45_reserved.md R170, R171). The opcodes' numbers are the spec's decision D1, the aborted state its decision D11. -/
def Obligations.FatalOpcodesAbort : Prop :=
  (∀ ign : BitVec 12, decode (0b1000#4 ++ ign) = .rti ∧ decode (0b1101#4 ++ ign) = .res) ∧
  (∀ s : State, ∃ t, exec .rti s = .next t ∧ OnlyAborted .illegalOpcode s t ∧ t.abortCode = 1) ∧
  (∀ s : State, ∃ t, exec .res s = .next t ∧ OnlyAborted .illegalOpcode s t ∧ t.abortCode = 1)

/-! ### Reset, images, invariants -/

/-- The default machine at reset: every register 0x0000, `pc` 0x3000, `COND` ZERO, every cell 0x0000, RUNNING, no
abort cause, nothing output (the spec's defaults, 10_state.md R43, 70_reset_and_hazards.md R210); no input, now or
later (the model's choice, log entry 6). The defaults are the spec's decisions D7 to D12 (log entries 3 and 4). -/
def Obligations.ResetValues : Prop :=
  (∀ r, State.reset.x r = 0x0000) ∧ State.reset.pc = 0x3000 ∧ State.reset.cond = .zero ∧
  (∀ a, State.reset.cell a = 0x0000) ∧ State.reset.run = .running ∧ State.reset.abortCause = none ∧
  State.reset.abortCode = 0 ∧ State.reset.out = [] ∧ State.reset.inQueue = [] ∧ State.reset.arrivals = [] ∧
  State.reset.refill = [] ∧ State.reset.params.unknownTrapPolicy = .fatal

/-- The state after reset is legal (10_state.md R45): the model's choices of memory's form, of the defaults and of
no input (log entries 2, 3 and 6). -/
def Obligations.ResetIsLegal : Prop := State.reset.Legal

/-- Every step from a legal state, reached by a run or not, gives a legal state, and so does every turn of the input
environment: memory keeps its canonical form, and `RUN` is ABORTED exactly when there is an abort cause (10_state.md
R45). The canonical form of memory is the model's choice (log entry 2). -/
def Obligations.StepKeepsLegalStates : Prop :=
  (∀ s t : State, s.Legal → step s = .next t → t.Legal) ∧ ∀ (s : State) (e : Supply), s.Legal → (s.supply e).Legal

/-- No step changes a parameter, and none changes the refill (00_scope.md R10: the parameters are arguments of the
model). That parameters and refill stand in the state is the model's choice (log entries 4 and 5). -/
def Obligations.ParametersNeverChange : Prop :=
  ∀ s t : State, step s = .next t → t.params = s.params ∧ t.refill = s.refill

/-- Loading one image whose payload fits: word `j` is in cell `origin + j`, every other cell is as before the load,
and nothing else differs from reset (20_memory.md R70, R71). -/
def Obligations.ImageLoadPlacesThePayload : Prop :=
  ∀ (p : Params) (origin : Word) (words : List Word) (inQueue : List Byte) (arrivals : List (List Byte))
    (refill : List (List Byte)), origin.toNat + words.length ≤ 65536 →
    ∃ t, launch p [imageFile origin words] inQueue arrivals refill = .next t ∧
      (∀ (j : Nat) (h : j < words.length), t.cell (origin + BitVec.ofNat 16 j) = words[j]) ∧
      (∀ a : Word, (∀ j, j < words.length → a ≠ origin + BitVec.ofNat 16 j) → t.cell a = Memory.read p.initMem a.toNat) ∧
      t = { State.resetWith p inQueue arrivals refill with mem := t.mem }

/-- Two images loaded in sequence, with any input: a cell the second covers has the second's word, a cell only the
first covers the first's, and every other cell its value before the loads (20_memory.md R72). -/
def Obligations.LaterImagesOverwrite : Prop :=
  ∀ (p : Params) (o₁ o₂ : Word) (ws₁ ws₂ : List Word) (inQueue : List Byte) (arrivals refill : List (List Byte)),
    o₁.toNat + ws₁.length ≤ 65536 → o₂.toNat + ws₂.length ≤ 65536 →
    ∃ t, launch p [imageFile o₁ ws₁, imageFile o₂ ws₂] inQueue arrivals refill = .next t ∧
      (∀ (j : Nat) (h : j < ws₂.length), t.cell (o₂ + BitVec.ofNat 16 j) = ws₂[j]) ∧
      (∀ (j : Nat) (h : j < ws₁.length), (∀ k, k < ws₂.length → o₁ + BitVec.ofNat 16 j ≠ o₂ + BitVec.ofNat 16 k) →
        t.cell (o₁ + BitVec.ofNat 16 j) = ws₁[j]) ∧
      (∀ a : Word, (∀ j, j < ws₁.length → a ≠ o₁ + BitVec.ofNat 16 j) →
        (∀ k, k < ws₂.length → a ≠ o₂ + BitVec.ofNat 16 k) → t.cell a = Memory.read p.initMem a.toNat)

/-- A launch of any list of images, with any input, is refused as a whole if one of them is ill-formed: an odd
number of bytes, fewer than 2 bytes, or a payload past 0xFFFF; the reason is that of the first ill-formed one. An
image of an origin alone is accepted and writes nothing (20_memory.md R73). That such images are refused is the
spec's decision D22; which reason is named is the model's choice (log entry 14). -/
def Obligations.IllFormedImagesAreRefused : Prop :=
  ∀ (p : Params) (before after : List (List Byte)) (inQueue : List Byte) (arrivals refill : List (List Byte)),
    (∀ (file : List Byte), IllFormedImage file → file ∈ before →
      ∃ why, launch p (before ++ after) inQueue arrivals refill = .refused (.illFormedImage why)) ∧
    ((∀ file ∈ before, ∃ (origin : Word) (words : List Word),
        origin.toNat + words.length ≤ 65536 ∧ file = imageFile origin words) →
      (∀ file : List Byte, file.length < 2 →
        launch p (before ++ file :: after) inQueue arrivals refill = .refused (.illFormedImage .tooShort)) ∧
      (∀ file : List Byte, 2 < file.length → file.length % 2 = 1 →
        launch p (before ++ file :: after) inQueue arrivals refill = .refused (.illFormedImage .oddLength)) ∧
      (∀ (origin : Word) (words : List Word), 65536 < origin.toNat + words.length →
        launch p (before ++ imageFile origin words :: after) inQueue arrivals refill =
          .refused (.illFormedImage .pastEnd)) ∧
      (∀ origin : Word, launch p (before ++ imageFile origin [] :: after) inQueue arrivals refill =
        launch p (before ++ after) inQueue arrivals refill))

/-- A launch from parameters whose initial memory is canonical gives a legal, RUNNING state at `PC_START` with
nothing output, whatever the images and the input (70_reset_and_hazards.md R210, R212). Reset is the spec's decision
D7 to D11; memory's canonical form is the model's choice (log entry 2). -/
def Obligations.LaunchIsLegal : Prop :=
  ∀ (p : Params) (files : List (List Byte)) (inQueue : List Byte) (arrivals refill : List (List Byte))
    (t : State), Memory.wf p.initMem → launch p files inQueue arrivals refill = .next t →
    t.Legal ∧ t.run = .running ∧ t.pc = p.pcStart ∧ t.out = [] ∧ t.regs = p.initRegs ∧ t.cond = p.initCond
end

