-- ==== Sys2Proof/Laws/State.lean ====
section
/-! SUPPORT. What each update of the state leaves in each field, true by unfolding, so that no later proof unfolds a
record update; then the same for the accessors `x`, `cell` and `out`. -/

namespace Sys2Proof.Machine

/-! ### Fields after `x[r] <- v` -/

@[simp] theorem setX_regs (s : State) (r : Reg) (v : Word) : (s.setX r v).regs = s.regs.set r v := rfl
@[simp] theorem setX_pc (s : State) (r : Reg) (v : Word) : (s.setX r v).pc = s.pc := rfl
@[simp] theorem setX_cond (s : State) (r : Reg) (v : Word) : (s.setX r v).cond = s.cond := rfl
@[simp] theorem setX_mem (s : State) (r : Reg) (v : Word) : (s.setX r v).mem = s.mem := rfl
@[simp] theorem setX_run (s : State) (r : Reg) (v : Word) : (s.setX r v).run = s.run := rfl
@[simp] theorem setX_abortCause (s : State) (r : Reg) (v : Word) : (s.setX r v).abortCause = s.abortCause := rfl
@[simp] theorem setX_inQueue (s : State) (r : Reg) (v : Word) : (s.setX r v).inQueue = s.inQueue := rfl
@[simp] theorem setX_arrivals (s : State) (r : Reg) (v : Word) : (s.setX r v).arrivals = s.arrivals := rfl
@[simp] theorem setX_refill (s : State) (r : Reg) (v : Word) : (s.setX r v).refill = s.refill := rfl
@[simp] theorem setX_portLog (s : State) (r : Reg) (v : Word) : (s.setX r v).portLog = s.portLog := rfl
@[simp] theorem setX_params (s : State) (r : Reg) (v : Word) : (s.setX r v).params = s.params := rfl

/-! ### Fields after `pc <- t` -/

@[simp] theorem setPc_regs (s : State) (t : Word) : (s.setPc t).regs = s.regs := rfl
@[simp] theorem setPc_pc (s : State) (t : Word) : (s.setPc t).pc = t := rfl
@[simp] theorem setPc_cond (s : State) (t : Word) : (s.setPc t).cond = s.cond := rfl
@[simp] theorem setPc_mem (s : State) (t : Word) : (s.setPc t).mem = s.mem := rfl
@[simp] theorem setPc_run (s : State) (t : Word) : (s.setPc t).run = s.run := rfl
@[simp] theorem setPc_abortCause (s : State) (t : Word) : (s.setPc t).abortCause = s.abortCause := rfl
@[simp] theorem setPc_inQueue (s : State) (t : Word) : (s.setPc t).inQueue = s.inQueue := rfl
@[simp] theorem setPc_arrivals (s : State) (t : Word) : (s.setPc t).arrivals = s.arrivals := rfl
@[simp] theorem setPc_refill (s : State) (t : Word) : (s.setPc t).refill = s.refill := rfl
@[simp] theorem setPc_portLog (s : State) (t : Word) : (s.setPc t).portLog = s.portLog := rfl
@[simp] theorem setPc_params (s : State) (t : Word) : (s.setPc t).params = s.params := rfl

/-! ### Fields after `M[a] <- v` -/

@[simp] theorem setCell_regs (s : State) (a v : Word) : (s.setCell a v).regs = s.regs := rfl
@[simp] theorem setCell_pc (s : State) (a v : Word) : (s.setCell a v).pc = s.pc := rfl
@[simp] theorem setCell_cond (s : State) (a v : Word) : (s.setCell a v).cond = s.cond := rfl
@[simp] theorem setCell_mem (s : State) (a v : Word) : (s.setCell a v).mem = Memory.write s.mem a.toNat v := rfl
@[simp] theorem setCell_run (s : State) (a v : Word) : (s.setCell a v).run = s.run := rfl
@[simp] theorem setCell_abortCause (s : State) (a v : Word) : (s.setCell a v).abortCause = s.abortCause := rfl
@[simp] theorem setCell_inQueue (s : State) (a v : Word) : (s.setCell a v).inQueue = s.inQueue := rfl
@[simp] theorem setCell_arrivals (s : State) (a v : Word) : (s.setCell a v).arrivals = s.arrivals := rfl
@[simp] theorem setCell_refill (s : State) (a v : Word) : (s.setCell a v).refill = s.refill := rfl
@[simp] theorem setCell_portLog (s : State) (a v : Word) : (s.setCell a v).portLog = s.portLog := rfl
@[simp] theorem setCell_params (s : State) (a v : Word) : (s.setCell a v).params = s.params := rfl

/-! ### Fields after port operations -/

@[simp] theorem logPorts_regs (s : State) (es : List PortEvent) : (s.logPorts es).regs = s.regs := rfl
@[simp] theorem logPorts_pc (s : State) (es : List PortEvent) : (s.logPorts es).pc = s.pc := rfl
@[simp] theorem logPorts_cond (s : State) (es : List PortEvent) : (s.logPorts es).cond = s.cond := rfl
@[simp] theorem logPorts_mem (s : State) (es : List PortEvent) : (s.logPorts es).mem = s.mem := rfl
@[simp] theorem logPorts_run (s : State) (es : List PortEvent) : (s.logPorts es).run = s.run := rfl
@[simp] theorem logPorts_abortCause (s : State) (es : List PortEvent) : (s.logPorts es).abortCause = s.abortCause := rfl
@[simp] theorem logPorts_inQueue (s : State) (es : List PortEvent) : (s.logPorts es).inQueue = s.inQueue := rfl
@[simp] theorem logPorts_arrivals (s : State) (es : List PortEvent) : (s.logPorts es).arrivals = s.arrivals := rfl
@[simp] theorem logPorts_refill (s : State) (es : List PortEvent) : (s.logPorts es).refill = s.refill := rfl
@[simp] theorem logPorts_portLog (s : State) (es : List PortEvent) : (s.logPorts es).portLog = s.portLog ++ es := rfl
@[simp] theorem logPorts_params (s : State) (es : List PortEvent) : (s.logPorts es).params = s.params := rfl

/-! ### Fields after `SetCC(r)` -/

@[simp] theorem setCC_regs (r : Reg) (s : State) : (setCC r s).regs = s.regs := rfl
@[simp] theorem setCC_pc (r : Reg) (s : State) : (setCC r s).pc = s.pc := rfl
@[simp] theorem setCC_cond (r : Reg) (s : State) : (setCC r s).cond = condOf (s.x r) := rfl
@[simp] theorem setCC_mem (r : Reg) (s : State) : (setCC r s).mem = s.mem := rfl
@[simp] theorem setCC_run (r : Reg) (s : State) : (setCC r s).run = s.run := rfl
@[simp] theorem setCC_abortCause (r : Reg) (s : State) : (setCC r s).abortCause = s.abortCause := rfl
@[simp] theorem setCC_inQueue (r : Reg) (s : State) : (setCC r s).inQueue = s.inQueue := rfl
@[simp] theorem setCC_arrivals (r : Reg) (s : State) : (setCC r s).arrivals = s.arrivals := rfl
@[simp] theorem setCC_refill (r : Reg) (s : State) : (setCC r s).refill = s.refill := rfl
@[simp] theorem setCC_portLog (r : Reg) (s : State) : (setCC r s).portLog = s.portLog := rfl
@[simp] theorem setCC_params (r : Reg) (s : State) : (setCC r s).params = s.params := rfl

/-! ### Fields after `raise Fatal(c)` -/

@[simp] theorem raiseFatal_regs (c : FatalCause) (s : State) : (raiseFatal c s).regs = s.regs := rfl
@[simp] theorem raiseFatal_pc (c : FatalCause) (s : State) : (raiseFatal c s).pc = s.pc := rfl
@[simp] theorem raiseFatal_cond (c : FatalCause) (s : State) : (raiseFatal c s).cond = s.cond := rfl
@[simp] theorem raiseFatal_mem (c : FatalCause) (s : State) : (raiseFatal c s).mem = s.mem := rfl
@[simp] theorem raiseFatal_run (c : FatalCause) (s : State) : (raiseFatal c s).run = .aborted := rfl
@[simp] theorem raiseFatal_abortCause (c : FatalCause) (s : State) : (raiseFatal c s).abortCause = some c := rfl
@[simp] theorem raiseFatal_inQueue (c : FatalCause) (s : State) : (raiseFatal c s).inQueue = s.inQueue := rfl
@[simp] theorem raiseFatal_arrivals (c : FatalCause) (s : State) : (raiseFatal c s).arrivals = s.arrivals := rfl
@[simp] theorem raiseFatal_refill (c : FatalCause) (s : State) : (raiseFatal c s).refill = s.refill := rfl
@[simp] theorem raiseFatal_portLog (c : FatalCause) (s : State) : (raiseFatal c s).portLog = s.portLog := rfl
@[simp] theorem raiseFatal_params (c : FatalCause) (s : State) : (raiseFatal c s).params = s.params := rfl

/-! ### Fields after `RUN <- HALTED` -/

@[simp] theorem haltEngine_regs (s : State) : (haltEngine s).regs = s.regs := rfl
@[simp] theorem haltEngine_pc (s : State) : (haltEngine s).pc = s.pc := rfl
@[simp] theorem haltEngine_cond (s : State) : (haltEngine s).cond = s.cond := rfl
@[simp] theorem haltEngine_mem (s : State) : (haltEngine s).mem = s.mem := rfl
@[simp] theorem haltEngine_run (s : State) : (haltEngine s).run = .halted := rfl
@[simp] theorem haltEngine_abortCause (s : State) : (haltEngine s).abortCause = s.abortCause := rfl
@[simp] theorem haltEngine_inQueue (s : State) : (haltEngine s).inQueue = s.inQueue := rfl
@[simp] theorem haltEngine_arrivals (s : State) : (haltEngine s).arrivals = s.arrivals := rfl
@[simp] theorem haltEngine_refill (s : State) : (haltEngine s).refill = s.refill := rfl
@[simp] theorem haltEngine_portLog (s : State) : (haltEngine s).portLog = s.portLog := rfl
@[simp] theorem haltEngine_params (s : State) : (haltEngine s).params = s.params := rfl

/-! ### Fields after the link write -/

@[simp] theorem linkR7_regs (s : State) : (linkR7 s).regs = s.regs.set 7 s.pc := rfl
@[simp] theorem linkR7_pc (s : State) : (linkR7 s).pc = s.pc := rfl
@[simp] theorem linkR7_cond (s : State) : (linkR7 s).cond = s.cond := rfl
@[simp] theorem linkR7_mem (s : State) : (linkR7 s).mem = s.mem := rfl
@[simp] theorem linkR7_run (s : State) : (linkR7 s).run = s.run := rfl
@[simp] theorem linkR7_abortCause (s : State) : (linkR7 s).abortCause = s.abortCause := rfl
@[simp] theorem linkR7_inQueue (s : State) : (linkR7 s).inQueue = s.inQueue := rfl
@[simp] theorem linkR7_arrivals (s : State) : (linkR7 s).arrivals = s.arrivals := rfl
@[simp] theorem linkR7_refill (s : State) : (linkR7 s).refill = s.refill := rfl
@[simp] theorem linkR7_portLog (s : State) : (linkR7 s).portLog = s.portLog := rfl
@[simp] theorem linkR7_params (s : State) : (linkR7 s).params = s.params := rfl

/-! ### Fields after `OutWrite` -/

@[simp] theorem outWrite_regs (bs : List Byte) (s : State) : (outWrite bs s).regs = s.regs := rfl
@[simp] theorem outWrite_pc (bs : List Byte) (s : State) : (outWrite bs s).pc = s.pc := rfl
@[simp] theorem outWrite_cond (bs : List Byte) (s : State) : (outWrite bs s).cond = s.cond := rfl
@[simp] theorem outWrite_mem (bs : List Byte) (s : State) : (outWrite bs s).mem = s.mem := rfl
@[simp] theorem outWrite_run (bs : List Byte) (s : State) : (outWrite bs s).run = s.run := rfl
@[simp] theorem outWrite_abortCause (bs : List Byte) (s : State) : (outWrite bs s).abortCause = s.abortCause := rfl
@[simp] theorem outWrite_inQueue (bs : List Byte) (s : State) : (outWrite bs s).inQueue = s.inQueue := rfl
@[simp] theorem outWrite_arrivals (bs : List Byte) (s : State) : (outWrite bs s).arrivals = s.arrivals := rfl
@[simp] theorem outWrite_refill (bs : List Byte) (s : State) : (outWrite bs s).refill = s.refill := rfl
@[simp] theorem outWrite_portLog (bs : List Byte) (s : State) : (outWrite bs s).portLog = s.portLog ++ bs.map .wrote := rfl
@[simp] theorem outWrite_params (bs : List Byte) (s : State) : (outWrite bs s).params = s.params := rfl

/-! ### Fields after `MemWrite` -/

@[simp] theorem memWrite_regs (a v : Word) (s : State) : (memWrite a v s).regs = s.regs := rfl
@[simp] theorem memWrite_pc (a v : Word) (s : State) : (memWrite a v s).pc = s.pc := rfl
@[simp] theorem memWrite_cond (a v : Word) (s : State) : (memWrite a v s).cond = s.cond := rfl
@[simp] theorem memWrite_mem (a v : Word) (s : State) : (memWrite a v s).mem = Memory.write s.mem a.toNat v := rfl
@[simp] theorem memWrite_run (a v : Word) (s : State) : (memWrite a v s).run = s.run := rfl
@[simp] theorem memWrite_abortCause (a v : Word) (s : State) : (memWrite a v s).abortCause = s.abortCause := rfl
@[simp] theorem memWrite_inQueue (a v : Word) (s : State) : (memWrite a v s).inQueue = s.inQueue := rfl
@[simp] theorem memWrite_arrivals (a v : Word) (s : State) : (memWrite a v s).arrivals = s.arrivals := rfl
@[simp] theorem memWrite_refill (a v : Word) (s : State) : (memWrite a v s).refill = s.refill := rfl
@[simp] theorem memWrite_portLog (a v : Word) (s : State) : (memWrite a v s).portLog = s.portLog := rfl
@[simp] theorem memWrite_params (a v : Word) (s : State) : (memWrite a v s).params = s.params := rfl

/-! ### Fields after the destination write and `SetCC` -/

@[simp] theorem writeResult_regs (r : Reg) (v : Word) (s : State) : (writeResult r v s).regs = s.regs.set r v := rfl
@[simp] theorem writeResult_pc (r : Reg) (v : Word) (s : State) : (writeResult r v s).pc = s.pc := rfl
@[simp] theorem writeResult_mem (r : Reg) (v : Word) (s : State) : (writeResult r v s).mem = s.mem := rfl
@[simp] theorem writeResult_run (r : Reg) (v : Word) (s : State) : (writeResult r v s).run = s.run := rfl
@[simp] theorem writeResult_abortCause (r : Reg) (v : Word) (s : State) : (writeResult r v s).abortCause = s.abortCause := rfl
@[simp] theorem writeResult_inQueue (r : Reg) (v : Word) (s : State) : (writeResult r v s).inQueue = s.inQueue := rfl
@[simp] theorem writeResult_arrivals (r : Reg) (v : Word) (s : State) : (writeResult r v s).arrivals = s.arrivals := rfl
@[simp] theorem writeResult_refill (r : Reg) (v : Word) (s : State) : (writeResult r v s).refill = s.refill := rfl
@[simp] theorem writeResult_portLog (r : Reg) (v : Word) (s : State) : (writeResult r v s).portLog = s.portLog := rfl
@[simp] theorem writeResult_params (r : Reg) (v : Word) (s : State) : (writeResult r v s).params = s.params := rfl
/-! ### Registers -/

/-- Reading a register after a register write. -/
theorem setX_x (s : State) (r q : Reg) (v : Word) : (s.setX r v).x q = if r = q then v else s.x q := by
  simp [State.x, Vector.get_eq_getElem, Vector.getElem_set, Fin.ext_iff]

@[simp] theorem setX_x_same (s : State) (r : Reg) (v : Word) : (s.setX r v).x r = v := by simp [setX_x]

theorem setX_x_other (s : State) {r q : Reg} (v : Word) (h : r ≠ q) : (s.setX r v).x q = s.x q := by simp [setX_x, h]

/-- Two states with the same register file have the same registers. -/
theorem x_congr {s t : State} (h : t.regs = s.regs) (r : Reg) : t.x r = s.x r := by simp [State.x, h]

@[simp] theorem setPc_x (s : State) (t : Word) (r : Reg) : (s.setPc t).x r = s.x r := rfl
@[simp] theorem setCell_x (s : State) (a v : Word) (r : Reg) : (s.setCell a v).x r = s.x r := rfl
@[simp] theorem logPorts_x (s : State) (es : List PortEvent) (r : Reg) : (s.logPorts es).x r = s.x r := rfl
@[simp] theorem setCC_x (q : Reg) (s : State) (r : Reg) : (setCC q s).x r = s.x r := rfl
@[simp] theorem raiseFatal_x (c : FatalCause) (s : State) (r : Reg) : (raiseFatal c s).x r = s.x r := rfl
@[simp] theorem haltEngine_x (s : State) (r : Reg) : (haltEngine s).x r = s.x r := rfl
@[simp] theorem outWrite_x (bs : List Byte) (s : State) (r : Reg) : (outWrite bs s).x r = s.x r := rfl
@[simp] theorem memWrite_x (a v : Word) (s : State) (r : Reg) : (memWrite a v s).x r = s.x r := rfl

/-- R7 after the link write is `pc`; the other registers are as before. -/
theorem linkR7_x (s : State) (r : Reg) : (linkR7 s).x r = if 7 = r then s.pc else s.x r := setX_x s 7 r s.pc

@[simp] theorem linkR7_x_seven (s : State) : (linkR7 s).x 7 = s.pc := by simp [linkR7_x]

/-- The destination holds the result; the other registers are as before. -/
theorem writeResult_x (dr : Reg) (v : Word) (s : State) (r : Reg) :
    (writeResult dr v s).x r = if dr = r then v else s.x r := setX_x s dr r v

@[simp] theorem writeResult_x_same (dr : Reg) (v : Word) (s : State) : (writeResult dr v s).x dr = v := by
  simp [writeResult_x]

/-- The flag after a result is written is the result's. -/
@[simp] theorem writeResult_cond (dr : Reg) (v : Word) (s : State) : (writeResult dr v s).cond = condOf v := by
  simp [writeResult]

/-! ### Cells -/

/-- Two states with the same memory have the same cells. -/
theorem cell_congr {s t : State} (h : t.mem = s.mem) (a : Word) : t.cell a = s.cell a := by simp [State.cell, h]

@[simp] theorem setX_cell (s : State) (r : Reg) (v a : Word) : (s.setX r v).cell a = s.cell a := rfl
@[simp] theorem setPc_cell (s : State) (t a : Word) : (s.setPc t).cell a = s.cell a := rfl
@[simp] theorem logPorts_cell (s : State) (es : List PortEvent) (a : Word) : (s.logPorts es).cell a = s.cell a := rfl
@[simp] theorem setCC_cell (q : Reg) (s : State) (a : Word) : (setCC q s).cell a = s.cell a := rfl
@[simp] theorem raiseFatal_cell (c : FatalCause) (s : State) (a : Word) : (raiseFatal c s).cell a = s.cell a := rfl
@[simp] theorem haltEngine_cell (s : State) (a : Word) : (haltEngine s).cell a = s.cell a := rfl
@[simp] theorem linkR7_cell (s : State) (a : Word) : (linkR7 s).cell a = s.cell a := rfl
@[simp] theorem outWrite_cell (bs : List Byte) (s : State) (a : Word) : (outWrite bs s).cell a = s.cell a := rfl
@[simp] theorem writeResult_cell (dr : Reg) (v : Word) (s : State) (a : Word) :
    (writeResult dr v s).cell a = s.cell a := rfl

/-! ### Output -/

/-- The output grows by the bytes the logged operations wrote. -/
@[simp] theorem logPorts_out (s : State) (es : List PortEvent) :
    (s.logPorts es).out = s.out ++ es.filterMap PortEvent.written := by simp [State.out]

/-- `OutWrite` of bytes appends exactly them to `OUT` (00_scope.md R8). -/
@[simp] theorem outWrite_out (bs : List Byte) (s : State) : (outWrite bs s).out = s.out ++ bs := by
  simp only [outWrite, logPorts_out, List.filterMap_map]
  congr 1
  induction bs with
  | nil => rfl
  | cons b bs ih => simpa [PortEvent.written] using ih

/-! ### The program counter and a state's own -/

/-- Writing the pc it already holds changes nothing. -/
@[simp] theorem setPc_self (s : State) : s.setPc s.pc = s := rfl

end Sys2Proof.Machine
end

