-- ==== Sys2Proof/Laws/Memory.lean ====
section
/-! SUPPORT. The laws of memory: a read after a write, and that every memory operation keeps the canonical form. The
read laws hold of every list, canonical or not. -/

namespace Sys2Proof.Machine

/-! ### Reading after writing -/

theorem read_erase_same (m : Memory) (a : Nat) : Memory.read (Memory.erase m a) a = Config.unlistedCell := by
  induction m with
  | nil => rfl
  | cons c rest ih =>
    obtain ⟨k, v⟩ := c
    by_cases hk : k = a
    · simpa [Memory.erase, hk] using ih
    · have : Memory.erase ((k, v) :: rest) a = (k, v) :: Memory.erase rest a := by simp [Memory.erase, hk]
      rw [this, Memory.read, if_neg hk, ih]

theorem read_erase_other (m : Memory) {a b : Nat} (h : a ≠ b) : Memory.read (Memory.erase m a) b = Memory.read m b := by
  induction m with
  | nil => rfl
  | cons c rest ih =>
    obtain ⟨k, v⟩ := c
    by_cases hk : k = a
    · have : Memory.erase ((k, v) :: rest) a = Memory.erase rest a := by simp [Memory.erase, hk]
      rw [this, ih, Memory.read, if_neg (by omega)]
    · have : Memory.erase ((k, v) :: rest) a = (k, v) :: Memory.erase rest a := by simp [Memory.erase, hk]
      rw [this, Memory.read, Memory.read, ih]

theorem read_insert (m : Memory) (a b : Nat) (v : Word) (h : ∀ c ∈ m, c.1 ≠ a) :
    Memory.read (Memory.insert m a v) b = if a = b then v else Memory.read m b := by
  induction m with
  | nil => rfl
  | cons c rest ih =>
    obtain ⟨k, w⟩ := c
    have hk : k ≠ a := h (k, w) (by simp)
    have hr := ih fun c hc => h c (by simp [hc])
    by_cases hlt : a < k
    · simp [Memory.insert, hlt, Memory.read]
    · simp only [Memory.insert, if_neg hlt, Memory.read, hr]
      by_cases hkb : k = b
      · simp [hkb, show a ≠ b by omega]
      · simp [hkb]

theorem erase_not_mem (m : Memory) (a : Nat) : ∀ c ∈ Memory.erase m a, c.1 ≠ a := by
  intro c hc
  simpa using (List.mem_filter.mp hc).2

/-- A read after a write to the same cell gives the value written, and a write leaves every other cell alone. -/
theorem read_write (m : Memory) (a b : Nat) (v : Word) :
    Memory.read (Memory.write m a v) b = if a = b then v else Memory.read m b := by
  unfold Memory.write
  split
  · rename_i hv
    by_cases hab : a = b
    · subst hab
      simp [read_erase_same, hv]
    · simp [read_erase_other m hab, hab]
  · rw [read_insert _ _ _ _ (erase_not_mem m a)]
    by_cases hab : a = b
    · simp [hab]
    · simp [hab, read_erase_other m hab]

/-! ### Cells of the state -/

/-- Reading a cell after a cell write. -/
theorem setCell_cell (s : State) (a v b : Word) : (s.setCell a v).cell b = if a = b then v else s.cell b := by
  simp only [State.cell, setCell_mem, read_write, ← BitVec.toNat_inj]

@[simp] theorem setCell_cell_same (s : State) (a v : Word) : (s.setCell a v).cell a = v := by simp [setCell_cell]

theorem setCell_cell_other (s : State) {a b : Word} (v : Word) (h : a ≠ b) : (s.setCell a v).cell b = s.cell b := by
  simp [setCell_cell, h]

/-- Reading a cell after `MemWrite`. -/
theorem memWrite_cell (a v : Word) (s : State) (b : Word) :
    (memWrite a v s).cell b = if a = b then v else s.cell b := setCell_cell s a v b

/-! ### The canonical form -/

theorem erase_wf {m : Memory} (h : Memory.wf m) (a : Nat) : Memory.wf (Memory.erase m a) :=
  ⟨h.1.filter _, fun c hc => h.2 c (List.mem_of_mem_filter hc)⟩

/-- The entries after an insertion: the new one and the old ones. -/
theorem mem_insert {m : Memory} {a : Nat} {v : Word} {c : Nat × Word} :
    c ∈ Memory.insert m a v ↔ c = (a, v) ∨ c ∈ m := by
  induction m with
  | nil => simp [Memory.insert]
  | cons d rest ih =>
    obtain ⟨k, w⟩ := d
    by_cases hlt : a < k
    · simp [Memory.insert, hlt]
    · simp only [Memory.insert, if_neg hlt, List.mem_cons, ih]
      tauto

theorem insert_pairwise {m : Memory} {a : Nat} {v : Word} (h : m.Pairwise (fun c d => c.1 < d.1))
    (hn : ∀ c ∈ m, c.1 ≠ a) : (Memory.insert m a v).Pairwise (fun c d => c.1 < d.1) := by
  induction m with
  | nil => simp [Memory.insert]
  | cons d rest ih =>
    obtain ⟨k, w⟩ := d
    obtain ⟨hk, hrest⟩ := List.pairwise_cons.mp h
    have hka : k ≠ a := hn (k, w) (by simp)
    by_cases hlt : a < k
    · simp only [Memory.insert, if_pos hlt]
      refine List.pairwise_cons.mpr ⟨fun c hc => ?_, h⟩
      rcases List.mem_cons.mp hc with rfl | hc
      · exact hlt
      · exact hlt.trans (hk c hc)
    · simp only [Memory.insert, if_neg hlt]
      refine List.pairwise_cons.mpr ⟨fun c hc => ?_, ih hrest fun c hc => hn c (by simp [hc])⟩
      rcases mem_insert.mp hc with rfl | hc
      · simp only
        omega
      · exact hk c hc

/-- A write inside the address space keeps the canonical form. -/
theorem write_wf {m : Memory} (h : Memory.wf m) {a : Nat} (ha : a < Config.memSize) (v : Word) :
    Memory.wf (Memory.write m a v) := by
  unfold Memory.write
  split
  · exact erase_wf h a
  · rename_i hv
    refine ⟨insert_pairwise (erase_wf h a).1 (erase_not_mem m a), fun c hc => ?_⟩
    rcases mem_insert.mp hc with rfl | hc
    · exact ⟨ha, hv⟩
    · exact (erase_wf h a).2 c hc

theorem setCell_wf {s : State} (h : Memory.wf s.mem) (a v : Word) : Memory.wf (s.setCell a v).mem :=
  write_wf h a.isLt v

/-- In canonical form, what a cell reads as decides the entries: equal reads are equal data. -/
theorem read_eq_of_mem {m : Memory} (h : m.Pairwise (fun c d => c.1 < d.1)) {c : Nat × Word} (hc : c ∈ m) :
    Memory.read m c.1 = c.2 := by
  induction m with
  | nil => simp at hc
  | cons d rest ih =>
    obtain ⟨k, w⟩ := d
    obtain ⟨hk, hrest⟩ := List.pairwise_cons.mp h
    rcases List.mem_cons.mp hc with rfl | hc
    · simp [Memory.read]
    · have := hk c hc
      simp only [Memory.read]
      rw [if_neg (by simp only at this; omega), ih hrest hc]

/-! ### Loading words -/

/-- A load of words into consecutive cells keeps the canonical form. -/
theorem loadWords_wf (ws : List Word) {m : Memory} (h : Memory.wf m) {a : Nat}
    (ha : a + ws.length ≤ Config.memSize) : Memory.wf (loadWords m a ws) := by
  induction ws generalizing m a with
  | nil => exact h
  | cons w ws ih =>
    simp only [List.length_cons] at ha
    exact ih (write_wf h (by omega) w) (by omega)

/-- A cell below the first one loaded is as before. -/
theorem loadWords_read_below (ws : List Word) (m : Memory) {a b : Nat} (h : b < a) :
    Memory.read (loadWords m a ws) b = Memory.read m b := by
  induction ws generalizing m a with
  | nil => rfl
  | cons w ws ih =>
    rw [loadWords, ih _ (by omega), read_write, if_neg (by omega)]

/-- What every cell reads as after a load of words: the word loaded there, or what it read as before. -/
theorem loadWords_read (ws : List Word) (m : Memory) (a b : Nat) :
    Memory.read (loadWords m a ws) b =
      if h : a ≤ b ∧ b < a + ws.length then ws[b - a]'(by omega) else Memory.read m b := by
  induction ws generalizing m a with
  | nil =>
    rw [dif_neg (by simp)]
    rfl
  | cons w ws ih =>
    rw [loadWords, ih, read_write]
    by_cases h : a + 1 ≤ b ∧ b < a + 1 + ws.length
    · rw [dif_pos h, dif_pos (by simp only [List.length_cons]; omega)]
      simp [show b - a = (b - (a + 1)) + 1 by omega]
    · rw [dif_neg h]
      by_cases hab : a = b
      · subst hab
        rw [if_pos rfl, dif_pos (by simp)]
        simp
      · rw [if_neg hab, dif_neg (by simp only [List.length_cons]; omega)]

end Sys2Proof.Machine
end

