-- ==== Sys2Proof/Laws/Ops.lean ====
section
/-! SUPPORT. For each shared operation, once, everything it can do; the provers cite these instead of unfolding. -/

namespace Sys2Proof.Machine

/-! ### The environment's turn -/

@[simp] theorem arrive_regs (s : State) : s.arrive.regs = s.regs := by unfold State.arrive; split <;> rfl
@[simp] theorem arrive_pc (s : State) : s.arrive.pc = s.pc := by unfold State.arrive; split <;> rfl
@[simp] theorem arrive_cond (s : State) : s.arrive.cond = s.cond := by unfold State.arrive; split <;> rfl
@[simp] theorem arrive_mem (s : State) : s.arrive.mem = s.mem := by unfold State.arrive; split <;> rfl
@[simp] theorem arrive_run (s : State) : s.arrive.run = s.run := by unfold State.arrive; split <;> rfl
@[simp] theorem arrive_abortCause (s : State) : s.arrive.abortCause = s.abortCause := by
  unfold State.arrive; split <;> rfl
@[simp] theorem arrive_refill (s : State) : s.arrive.refill = s.refill := by unfold State.arrive; split <;> rfl
@[simp] theorem arrive_portLog (s : State) : s.arrive.portLog = s.portLog := by unfold State.arrive; split <;> rfl
@[simp] theorem arrive_params (s : State) : s.arrive.params = s.params := by unfold State.arrive; split <;> rfl

/-- A turn of the environment with the schedule used up and no refill brings nothing. -/
theorem arrive_of_no_supply {s : State} (ha : s.arrivals = []) (hr : s.refill = []) : s.arrive = s := by
  simp [State.arrive, ha, hr]

/-- What a turn of the environment can do: nothing, when no more bytes come; the next batch of the schedule; or the first
batch of the refill. -/
theorem arrive_cases (s : State) :
    (s.arrivals = [] ∧ s.refill = [] ∧ s.arrive = s) ∨
    ∃ batch later, s.arrive = { s with inQueue := s.inQueue ++ batch, arrivals := later } ∧
      (s.arrivals = batch :: later ∨ s.arrivals = [] ∧ s.refill = batch :: later) := by
  unfold State.arrive
  split
  · exact .inr ⟨_, _, rfl, .inl ‹_›⟩
  · exact .inr ⟨_, _, rfl, .inr ⟨‹_›, ‹_›⟩⟩
  · exact .inl ⟨‹_›, ‹_›, rfl⟩

/-- A turn of the environment only moves bytes from the schedule, begun again or not, into `IN`. -/
theorem arrive_stream (s : State) : ∃ n, s.inQueue ++ s.arrivals.flatten ++ (List.replicate n s.refill.flatten).flatten =
    s.arrive.inQueue ++ s.arrive.arrivals.flatten := by
  obtain ⟨-, -, h⟩ | ⟨batch, later, h, ha | ⟨ha, hr⟩⟩ := arrive_cases s
  · exact ⟨0, by simp [h]⟩
  · exact ⟨0, by simp [h, ha]⟩
  · exact ⟨1, by simp [h, ha, hr]⟩

/-! ### The poll and `MemRead` -/

/-- A poll that finds no byte (20_memory.md R53). -/
theorem pollKeyboard_empty {s : State} (h : s.arrive.inQueue = []) :
    pollKeyboard s = (s.arrive.logPorts [.polled false]).setCell Config.kbsr 0x0000 := by
  simp [pollKeyboard, h]

/-- A poll that finds a byte (20_memory.md R53). -/
theorem pollKeyboard_ready {s : State} {b : Byte} {rest : List Byte} (h : s.arrive.inQueue = b :: rest) :
    pollKeyboard s =
      (({ s.arrive with inQueue := rest }.logPorts [.polled true, .took b]).setCell Config.kbsr
        Config.kbdReady).setCell Config.kbdr (zext8 b) := by
  simp [pollKeyboard, h]

/-- What a poll can do: one of the two cases above, by what is in `IN` after the environment's turn. -/
theorem pollKeyboard_cases (s : State) :
    (s.arrive.inQueue = [] ∧
      pollKeyboard s = (s.arrive.logPorts [.polled false]).setCell Config.kbsr 0x0000) ∨
    ∃ b rest, s.arrive.inQueue = b :: rest ∧
      pollKeyboard s =
        (({ s.arrive with inQueue := rest }.logPorts [.polled true, .took b]).setCell Config.kbsr
          Config.kbdReady).setCell Config.kbdr (zext8 b) := by
  cases h : s.arrive.inQueue with
  | nil => exact .inl ⟨rfl, pollKeyboard_empty h⟩
  | cons b rest => exact .inr ⟨b, rest, rfl, pollKeyboard_ready h⟩

/-- A read of any address but KBSR is plain (20_memory.md R54, R58). -/
theorem memRead_plain {a : Word} (h : a ≠ Config.kbsr) (s : State) : memRead a s = (s.cell a, s) := by
  simp [memRead, h]

/-- A read of KBSR polls, then reads the cell (20_memory.md R53). -/
theorem memRead_kbsr (s : State) :
    memRead Config.kbsr s = ((pollKeyboard s).cell Config.kbsr, pollKeyboard s) := by
  simp [memRead]

/-- What a read can do to the state: nothing, or a poll. -/
theorem memRead_state (a : Word) (s : State) : (memRead a s).2 = s ∨ a = Config.kbsr ∧ (memRead a s).2 = pollKeyboard s := by
  by_cases h : a = Config.kbsr
  · subst h
    exact .inr ⟨rfl, by simp [memRead_kbsr]⟩
  · exact .inl (by simp [memRead_plain h])

/-- The value a read gives is what the cell holds after it. -/
theorem memRead_value (a : Word) (s : State) : (memRead a s).1 = (memRead a s).2.cell a := by
  unfold memRead
  split
  · rename_i h
    rw [h]
  · rfl

@[simp] theorem pollKeyboard_regs (s : State) : (pollKeyboard s).regs = s.regs := by
  obtain ⟨-, h⟩ | ⟨b, rest, -, h⟩ := pollKeyboard_cases s <;> simp [h]
@[simp] theorem pollKeyboard_pc (s : State) : (pollKeyboard s).pc = s.pc := by
  obtain ⟨-, h⟩ | ⟨b, rest, -, h⟩ := pollKeyboard_cases s <;> simp [h]
@[simp] theorem pollKeyboard_cond (s : State) : (pollKeyboard s).cond = s.cond := by
  obtain ⟨-, h⟩ | ⟨b, rest, -, h⟩ := pollKeyboard_cases s <;> simp [h]
@[simp] theorem pollKeyboard_run (s : State) : (pollKeyboard s).run = s.run := by
  obtain ⟨-, h⟩ | ⟨b, rest, -, h⟩ := pollKeyboard_cases s <;> simp [h]
@[simp] theorem pollKeyboard_abortCause (s : State) : (pollKeyboard s).abortCause = s.abortCause := by
  obtain ⟨-, h⟩ | ⟨b, rest, -, h⟩ := pollKeyboard_cases s <;> simp [h]
@[simp] theorem pollKeyboard_refill (s : State) : (pollKeyboard s).refill = s.refill := by
  obtain ⟨-, h⟩ | ⟨b, rest, -, h⟩ := pollKeyboard_cases s <;> simp [h]
@[simp] theorem pollKeyboard_params (s : State) : (pollKeyboard s).params = s.params := by
  obtain ⟨-, h⟩ | ⟨b, rest, -, h⟩ := pollKeyboard_cases s <;> simp [h]

/-- A poll writes no cell but KBSR and KBDR (10_state.md R38). -/
theorem pollKeyboard_cell_other (s : State) {a : Word} (h₁ : a ≠ Config.kbsr) (h₂ : a ≠ Config.kbdr) :
    (pollKeyboard s).cell a = s.cell a := by
  obtain ⟨-, h⟩ | ⟨b, rest, -, h⟩ := pollKeyboard_cases s
  · rw [h, setCell_cell_other _ _ h₁.symm]
    simp [State.cell]
  · rw [h, setCell_cell_other _ _ h₂.symm, setCell_cell_other _ _ h₁.symm]
    simp [State.cell]

theorem pollKeyboard_wf {s : State} (hm : Memory.wf s.mem) : Memory.wf (pollKeyboard s).mem := by
  obtain ⟨-, h⟩ | ⟨b, rest, -, h⟩ := pollKeyboard_cases s
  · rw [h]
    exact setCell_wf (by simpa using hm) _ _
  · rw [h]
    exact setCell_wf (setCell_wf (by simpa using hm) _ _) _ _

/-- A read of KBSR returns 0x8000 or 0x0000 and nothing else (20_memory.md R53). -/
theorem memRead_kbsr_value (s : State) :
    (memRead Config.kbsr s).1 = 0x8000 ∨ (memRead Config.kbsr s).1 = 0x0000 := by
  rw [memRead_kbsr]
  obtain ⟨-, h⟩ | ⟨b, rest, -, h⟩ := pollKeyboard_cases s
  · exact .inr (by simp [h])
  · refine .inl ?_
    simp only [h]
    rw [setCell_cell_other _ _ (by decide)]
    simp [Config.kbdReady]

@[simp] theorem memRead_regs (a : Word) (s : State) : (memRead a s).2.regs = s.regs := by
  obtain h | ⟨-, h⟩ := memRead_state a s <;> simp [h]
@[simp] theorem memRead_pc (a : Word) (s : State) : (memRead a s).2.pc = s.pc := by
  obtain h | ⟨-, h⟩ := memRead_state a s <;> simp [h]
@[simp] theorem memRead_cond (a : Word) (s : State) : (memRead a s).2.cond = s.cond := by
  obtain h | ⟨-, h⟩ := memRead_state a s <;> simp [h]
@[simp] theorem memRead_run (a : Word) (s : State) : (memRead a s).2.run = s.run := by
  obtain h | ⟨-, h⟩ := memRead_state a s <;> simp [h]
@[simp] theorem memRead_abortCause (a : Word) (s : State) : (memRead a s).2.abortCause = s.abortCause := by
  obtain h | ⟨-, h⟩ := memRead_state a s <;> simp [h]
@[simp] theorem memRead_refill (a : Word) (s : State) : (memRead a s).2.refill = s.refill := by
  obtain h | ⟨-, h⟩ := memRead_state a s <;> simp [h]
@[simp] theorem memRead_params (a : Word) (s : State) : (memRead a s).2.params = s.params := by
  obtain h | ⟨-, h⟩ := memRead_state a s <;> simp [h]
@[simp] theorem memRead_x (a : Word) (s : State) (r : Reg) : (memRead a s).2.x r = s.x r :=
  x_congr (memRead_regs a s) r

/-- A read writes no cell but KBSR and KBDR (10_state.md R38). -/
theorem memRead_cell_other (a : Word) (s : State) {c : Word} (h₁ : c ≠ Config.kbsr) (h₂ : c ≠ Config.kbdr) :
    (memRead a s).2.cell c = s.cell c := by
  obtain h | ⟨-, h⟩ := memRead_state a s
  · rw [h]
  · rw [h, pollKeyboard_cell_other s h₁ h₂]

theorem memRead_wf (a : Word) {s : State} (hm : Memory.wf s.mem) : Memory.wf (memRead a s).2.mem := by
  obtain h | ⟨-, h⟩ := memRead_state a s
  · rwa [h]
  · rw [h]
    exact pollKeyboard_wf hm

/-- A read only adds to the port log. -/
theorem memRead_portLog (a : Word) (s : State) : ∃ es, (memRead a s).2.portLog = s.portLog ++ es := by
  obtain h | ⟨-, h⟩ := memRead_state a s
  · exact ⟨[], by simp [h]⟩
  · obtain ⟨-, hp⟩ | ⟨b, rest, -, hp⟩ := pollKeyboard_cases s
    · exact ⟨_, by rw [h, hp]; simp; rfl⟩
    · exact ⟨_, by rw [h, hp]; simp; rfl⟩

/-! ### `InRead` -/

/-- A byte in `IN` is taken at once, and the schedule is left as it is. -/
theorem takeByte_ready (b : Byte) (rest : List Byte) (arr refill : List (List Byte)) :
    takeByte (b :: rest) arr refill = some (b, rest, arr) := rfl

/-- A byte at the head of `IN` is the byte read (00_scope.md R7). -/
theorem inRead_ready {s : State} {b : Byte} {rest : List Byte} (h : s.inQueue = b :: rest) :
    inRead s = .ok (b, { s with inQueue := rest }.logPorts [.took b]) := by
  simp [inRead, h, takeByte_ready]

/-- Empty batches are waited through. -/
theorem firstByte_after_empty_batches (n : Nat) (batches : List (List Byte)) :
    firstByte (List.replicate n [] ++ batches) = firstByte batches := by
  induction n with
  | zero => rfl
  | succ n ih => exact ih

/-- There is no first byte exactly if every batch is empty. -/
theorem firstByte_eq_none {batches : List (List Byte)} : firstByte batches = none ↔ ∀ batch ∈ batches, batch = [] := by
  induction batches with
  | nil => simp [firstByte]
  | cons batch later ih => cases batch <;> simp [firstByte, ih]

/-- The first byte and what follows it are the stream of the batches. -/
theorem firstByte_stream {batches later : List (List Byte)} {b : Byte} {rest : List Byte}
    (h : firstByte batches = some (b, rest, later)) : batches.flatten = b :: (rest ++ later.flatten) := by
  induction batches with
  | nil => cases h
  | cons batch batches ih =>
    cases batch with
    | nil => simpa using ih h
    | cons c cs =>
      cases h
      rfl

/-- Empty batches of the schedule are waited through. -/
theorem takeByte_after_empty_batches (n : Nat) (b : Byte) (rest : List Byte) (later refill : List (List Byte)) :
    takeByte [] (List.replicate n [] ++ (b :: rest) :: later) refill = some (b, rest, later) := by
  simp [takeByte, firstByte, firstByte_after_empty_batches]

/-- When the whole schedule is empty batches, the byte is the first of the refill. -/
theorem takeByte_from_refill {arr : List (List Byte)} (h : ∀ batch ∈ arr, batch = []) (n : Nat) (b : Byte)
    (rest : List Byte) (later : List (List Byte)) :
    takeByte [] arr (List.replicate n [] ++ (b :: rest) :: later) = some (b, rest, later) := by
  simp [takeByte, firstByte, firstByte_eq_none.mpr h, firstByte_after_empty_batches]

/-- No byte is taken when none ever arrives. -/
theorem takeByte_none {arr refill : List (List Byte)} (ha : ∀ batch ∈ arr, batch = [])
    (hr : ∀ batch ∈ refill, batch = []) : takeByte [] arr refill = none := by
  simp [takeByte, firstByte, firstByte_eq_none.mpr ha, firstByte_eq_none.mpr hr]

/-- The byte taken is the next one of the stream, and the rest of the stream is left. -/
theorem takeByte_stream {q : List Byte} {arr refill : List (List Byte)} {b : Byte} {rest : List Byte}
    {later : List (List Byte)} (h : takeByte q arr refill = some (b, rest, later)) :
    ∃ n, q ++ arr.flatten ++ (List.replicate n refill.flatten).flatten = b :: (rest ++ later.flatten) := by
  unfold takeByte at h
  split at h
  · rename_i taken ht
    cases h
    exact ⟨0, by simpa using firstByte_stream ht⟩
  · rename_i hn
    have he : q = [] ∧ ∀ batch ∈ arr, batch = [] := by simpa using firstByte_eq_none.mp hn
    exact ⟨1, by simpa [he.1, List.flatten_eq_nil_iff.mpr he.2] using firstByte_stream h⟩

/-- A wait that never ends: `IN` is empty and so is every batch to come. -/
theorem inRead_waits {s w : State} (h : inRead s = .error w) :
    w = { s with arrivals := [] } ∧ s.inQueue = [] ∧ (∀ batch ∈ s.arrivals, batch = []) ∧
      ∀ batch ∈ s.refill, batch = [] := by
  unfold inRead at h
  split at h
  · rename_i hn
    cases h
    unfold takeByte at hn
    split at hn
    · cases hn
    · rename_i hf
      have he : s.inQueue = [] ∧ ∀ batch ∈ s.arrivals, batch = [] := by simpa using firstByte_eq_none.mp hf
      exact ⟨rfl, he.1, he.2, firstByte_eq_none.mp hn⟩
  · cases h

/-- What `InRead` can do: take a byte, changing `IN`, the schedule and the port log only. -/
theorem inRead_cases {s t : State} {b : Byte} (h : inRead s = .ok (b, t)) :
    ∃ rest later, takeByte s.inQueue s.arrivals s.refill = some (b, rest, later) ∧
      t = { s with inQueue := rest, arrivals := later }.logPorts [.took b] := by
  unfold inRead at h
  split at h
  · cases h
  · rename_i c rest later hb
    cases h
    exact ⟨rest, later, hb, rfl⟩

/-! ### The string loop -/

/-- The state a string loop has come to, whether it has ended or not. -/
def loopState : Except (Word × State) State → State
  | .ok t => t
  | .error (_, u) => u

/-- A property that every read and every output keeps is kept by a string service's loop, ended or not. -/
theorem putString_keeps {chars : Word → List Byte} {P : State → Prop} (hr : ∀ a s, P s → P (memRead a s).2)
    (hw : ∀ bs s, P s → P (outWrite bs s)) :
    ∀ {fuel : Nat} {a : Word} {s : State}, P s → P (loopState (putString chars fuel a s)) := by
  intro fuel
  induction fuel with
  | zero => exact id
  | succ fuel ih =>
    intro a s hs
    unfold putString
    split
    · exact hr a s hs
    · exact ih (hw _ _ (hr a s hs))

/-- What a string service can do: its loop's final state, if the loop ends within the fuel. -/
theorem serviceString_next {chars : Word → List Byte} {s t : State} (h : serviceString chars s = .next t) :
    putString chars (stringFuel s) (s.x 0) s = .ok t := by
  unfold serviceString trapReturn at h
  split at h
  · cases h
  · rename_i hp
    cases h
    exact hp

/-- When a string service stops: its loop has not ended within the fuel, and the stop holds where it has come to. -/
theorem serviceString_fault {chars : Word → List Byte} {s : State} {f : Fault} (h : serviceString chars s = .fault f) :
    ∃ a u, f = .stringNeverEnds a u ∧ putString chars (stringFuel s) (s.x 0) s = .error (a, u) := by
  unfold serviceString trapReturn at h
  split at h
  · rename_i a u hp
    cases h
    exact ⟨a, u, rfl, hp⟩
  · cases h

/-! ### The step -/

/-- A step is taken only while RUNNING. -/
theorem step_running {s t : State} (h : step s = .next t) : s.run = .running := by
  unfold step stopReason at h
  cases hr : s.run <;> simp_all

/-- A step from a RUNNING state executes the fetched instruction. -/
theorem step_of_running {s : State} (h : s.run = .running) : step s = exec (decode (fetch s).1) (fetch s).2 := by
  simp [step, stopReason, h]

/-- What a step that is taken is. -/
theorem step_cases {s t : State} (h : step s = .next t) :
    s.run = .running ∧ exec (decode (fetch s).1) (fetch s).2 = .next t := by
  have hr := step_running h
  exact ⟨hr, by rw [← step_of_running hr, h]⟩

end Sys2Proof.Machine
end

