-- ==== Sys2Proof/Laws/Exec.lean ====
section
/-! SUPPORT. What the services and `exec` can do, said once: an inversion lemma for each trap service, the dispatch by
vector, and the principle that a property kept by every shared operation is kept by every instruction and step. -/

namespace Sys2Proof.Machine

/-! ### Flags -/

/-- The flag of a value is NEGATIVE exactly if its bit 15 is 1 (10_state.md R30). -/
theorem condOf_negative_iff (v : Word) : condOf v = .negative ↔ v.getLsbD 15 = true := by
  unfold condOf
  by_cases h0 : v = 0x0000
  · subst h0
    decide
  · rw [if_neg h0]
    cases v.getLsbD 15 <;> simp

/-- The flag of a value is ZERO exactly if the value is 0x0000 (10_state.md R30). -/
theorem condOf_zero_iff (v : Word) : condOf v = .zero ↔ v = 0x0000 := by
  unfold condOf
  by_cases h0 : v = 0x0000
  · simp [h0]
  · have h0' : ¬v = 0#16 := h0
    rw [if_neg h0]
    cases v.getLsbD 15 <;> simp [h0']

/-- The flag of a value is POSITIVE exactly if the value is not 0x0000 and its bit 15 is 0 (10_state.md R30). -/
theorem condOf_positive_iff (v : Word) : condOf v = .positive ↔ v ≠ 0x0000 ∧ v.getLsbD 15 = false := by
  unfold condOf
  by_cases h0 : v = 0x0000
  · simp [h0]
  · have h0' : ¬v = 0#16 := h0
    rw [if_neg h0]
    cases v.getLsbD 15 <;> simp [h0']

/-! ### The trap services -/

/-- What GETC can do after the link. -/
theorem serviceGetc_next {s t : State} (h : serviceGetc s = .next t) :
    ∃ b s', inRead s = .ok (b, s') ∧ t = writeResult 0 (zext8 b) s' := by
  unfold serviceGetc trapReturn at h
  split at h
  · cases h
  · rename_i b s' hb
    cases h
    exact ⟨b, s', hb, rfl⟩

/-- What IN can do after the link. -/
theorem serviceIn_next {s t : State} (h : serviceIn s = .next t) :
    ∃ b s', inRead (outWrite s.params.inPrompt s) = .ok (b, s') ∧ t = writeResult 0 (zext8 b) (outWrite [b] s') := by
  unfold serviceIn trapReturn at h
  split at h
  · cases h
  · rename_i b s' hb
    cases h
    exact ⟨b, s', hb, rfl⟩

/-- When GETC waits for ever: the stop holds the state in which it waits. -/
theorem serviceGetc_fault {s : State} {f : Fault} (h : serviceGetc s = .fault f) :
    ∃ w, inRead s = .error w ∧ f = .inputHold w := by
  unfold serviceGetc trapReturn at h
  split at h
  · rename_i w hw
    cases h
    exact ⟨w, hw, rfl⟩
  · cases h

/-- When IN waits for ever: the stop holds the state in which it waits, the prompt written. -/
theorem serviceIn_fault {s : State} {f : Fault} (h : serviceIn s = .fault f) :
    ∃ w, inRead (outWrite s.params.inPrompt s) = .error w ∧ f = .inputHold w := by
  unfold serviceIn trapReturn at h
  split at h
  · rename_i w hw
    cases h
    exact ⟨w, hw, rfl⟩
  · cases h

/-- What an unknown vector can do after the link. -/
theorem serviceUnknown_next {s t : State} (h : serviceUnknown s = .next t) :
    s.params.unknownTrapPolicy = .fatal ∧ t = raiseFatal .unknownTrapVector s ∨
      s.params.unknownTrapPolicy = .noop ∧ t = s := by
  unfold serviceUnknown trapReturn at h
  cases hp : s.params.unknownTrapPolicy <;> rw [hp] at h <;> cases h
  · exact .inl ⟨rfl, rfl⟩
  · exact .inr ⟨rfl, rfl⟩

/-- The service of a vector is that of the constructor the decoder gives for it (44_trap.md R150). -/
theorem exec_decodeTrap (vect : BitVec 8) (s : State) : exec (decodeTrap vect) s = exec (.trap vect) s := by
  unfold decodeTrap
  split_ifs with h1 h2 h3 h4 h5 h6 <;> (try subst vect) <;> rfl

/-- The instructions that can stop: GETC, IN, PUTS and PUTSP, by their services (60_exceptions.md R190). -/
theorem exec_fault_cases {i : Instr} {s : State} {f : Fault} (h : exec i s = .fault f) :
    serviceGetc (linkR7 s) = .fault f ∨ serviceIn (linkR7 s) = .fault f ∨
      serviceString putsChars (linkR7 s) = .fault f ∨ serviceString putspChars (linkR7 s) = .fault f := by
  cases i with
  | getc => exact .inl h
  | inChar => exact .inr (.inl h)
  | puts => exact .inr (.inr (.inl h))
  | putsp => exact .inr (.inr (.inr h))
  | trap vect =>
    have h' : trapService vect (linkR7 s) = .fault f := h
    unfold trapService at h'
    split_ifs at h'
    · exact .inl h'
    · cases h'
    · exact .inr (.inr (.inl h'))
    · exact .inr (.inl h')
    · exact .inr (.inr (.inr h'))
    · cases h'
    · unfold serviceUnknown at h'
      split at h' <;> cases h'
  | addReg dr sr1 sr2 => cases h
  | addImm dr sr1 imm => cases h
  | andReg dr sr1 sr2 => cases h
  | andImm dr sr1 imm => cases h
  | not dr sr => cases h
  | lea dr off => cases h
  | ld dr off => cases h
  | ldr dr base off => cases h
  | ldi dr off => cases h
  | st sr off => cases h
  | str sr base off => cases h
  | sti sr off => cases h
  | br nzp off => cases h
  | jmp base => cases h
  | ret => cases h
  | jsr off => cases h
  | jsrr base => cases h
  | rti => cases h
  | res => cases h
  | out => cases h
  | halt => cases h

/-- TRAP with an unknown vector (44_trap.md R158). -/
theorem exec_trap_unknown {vect : BitVec 8} (h : vect ∉ definedVectors) (s : State) :
    exec (.trap vect) s = serviceUnknown (linkR7 s) := by
  simp only [definedVectors, List.mem_cons, List.not_mem_nil, or_false, not_or] at h
  obtain ⟨h1, h2, h3, h4, h5, h6⟩ := h
  show trapService vect (linkR7 s) = _
  unfold trapService
  rw [if_neg h1, if_neg h2, if_neg h3, if_neg h4, if_neg h5, if_neg h6]

/-- TRAP with a defined vector is the instruction of its service (44_trap.md R150). -/
theorem exec_trap_defined {vect : BitVec 8} (h : vect ∈ definedVectors) :
    decodeTrap vect ∈ [Instr.getc, .out, .puts, .inChar, .putsp, .halt] := by
  revert vect
  decide

/-! ### Properties that every instruction keeps -/

/-- `P` is kept by every operation an instruction is made of. -/
structure Kept (P : State → Prop) : Prop where
  setX : ∀ r v s, P s → P (State.setX s r v)
  setPc : ∀ t s, P s → P (State.setPc s t)
  setCC : ∀ r s, P s → P (setCC r s)
  memRead : ∀ a s, P s → P (memRead a s).2
  memWrite : ∀ a v s, P s → P (memWrite a v s)
  outWrite : ∀ bs s, P s → P (outWrite bs s)
  inRead : ∀ b s t, inRead s = .ok (b, t) → P s → P t
  inReadWaits : ∀ s w, Machine.inRead s = .error w → P s → P w
  raiseFatal : ∀ c s, P s → P (raiseFatal c s)
  haltEngine : ∀ s, P s → P (haltEngine s)

namespace Kept

variable {P : State → Prop} (k : Kept P)

include k

theorem writeResult {dr : Reg} {v : Word} {s : State} (h : P s) : P (Machine.writeResult dr v s) :=
  k.setCC _ _ (k.setX _ _ _ h)

theorem linkR7 {s : State} (h : P s) : P (Machine.linkR7 s) := k.setX _ _ _ h

theorem loadInto {dr : Reg} {ea : Word} {s : State} (h : P s) : P (Machine.loadInto dr ea s) :=
  k.writeResult (k.memRead _ _ h)

theorem serviceString {chars : Word → List Byte} {s t : State} (h : Machine.serviceString chars s = .next t)
    (hs : P s) : P t :=
  by simpa [serviceString_next h, loopState] using
    putString_keeps k.memRead k.outWrite (chars := chars) (fuel := stringFuel s) (a := s.x 0) hs

theorem serviceGetc {s t : State} (h : Machine.serviceGetc s = .next t) (hs : P s) : P t := by
  obtain ⟨b, s', hb, rfl⟩ := serviceGetc_next h
  exact k.writeResult (k.inRead _ _ _ hb hs)

theorem serviceIn {s t : State} (h : Machine.serviceIn s = .next t) (hs : P s) : P t := by
  obtain ⟨b, s', hb, rfl⟩ := serviceIn_next h
  exact k.writeResult (k.outWrite _ _ (k.inRead _ _ _ hb (k.outWrite _ _ hs)))

theorem serviceHalt {s t : State} (h : Machine.serviceHalt s = .next t) (hs : P s) : P t := by
  cases h
  exact k.haltEngine _ (k.outWrite _ _ hs)

theorem serviceUnknown {s t : State} (h : Machine.serviceUnknown s = .next t) (hs : P s) : P t := by
  obtain ⟨-, rfl⟩ | ⟨-, rfl⟩ := serviceUnknown_next h
  · exact k.raiseFatal _ _ hs
  · exact hs

theorem trapService {vect : BitVec 8} {s t : State} (h : Machine.trapService vect s = .next t) (hs : P s) : P t := by
  unfold Machine.trapService at h
  split_ifs at h
  · exact k.serviceGetc h hs
  · cases h
    exact k.outWrite _ _ hs
  · exact k.serviceString h hs
  · exact k.serviceIn h hs
  · exact k.serviceString h hs
  · exact k.serviceHalt h hs
  · exact k.serviceUnknown h hs

/-- What every shared operation keeps, every instruction keeps. -/
theorem exec {i : Instr} {s t : State} (h : Machine.exec i s = .next t) (hs : P s) : P t := by
  cases i with
  | addReg dr sr1 sr2 => cases h; exact k.writeResult hs
  | addImm dr sr1 imm => cases h; exact k.writeResult hs
  | andReg dr sr1 sr2 => cases h; exact k.writeResult hs
  | andImm dr sr1 imm => cases h; exact k.writeResult hs
  | not dr sr => cases h; exact k.writeResult hs
  | lea dr off => cases h; exact k.writeResult hs
  | ld dr off => cases h; exact k.loadInto hs
  | ldr dr base off => cases h; exact k.loadInto hs
  | ldi dr off => cases h; exact k.loadInto (k.memRead _ _ hs)
  | st sr off => cases h; exact k.memWrite _ _ _ hs
  | str sr base off => cases h; exact k.memWrite _ _ _ hs
  | sti sr off => cases h; exact k.memWrite _ _ _ (k.memRead _ _ hs)
  | br nzp off =>
    cases h
    split
    · exact k.setPc _ _ hs
    · exact hs
  | jmp base => cases h; exact k.setPc _ _ hs
  | ret => cases h; exact k.setPc _ _ hs
  | jsr off => cases h; exact k.setPc _ _ (k.linkR7 hs)
  | jsrr base => cases h; exact k.setPc _ _ (k.linkR7 hs)
  | rti => cases h; exact k.raiseFatal _ _ hs
  | res => cases h; exact k.raiseFatal _ _ hs
  | trap vect => exact k.trapService h (k.linkR7 hs)
  | getc => exact k.serviceGetc h (k.linkR7 hs)
  | out => cases h; exact k.outWrite _ _ (k.linkR7 hs)
  | puts => exact k.serviceString h (k.linkR7 hs)
  | inChar => exact k.serviceIn h (k.linkR7 hs)
  | putsp => exact k.serviceString h (k.linkR7 hs)
  | halt => exact k.serviceHalt h (k.linkR7 hs)

theorem stringFault {chars : Word → List Byte} {s t : State} {f : Fault} (h : Machine.serviceString chars s = .fault f)
    (ht : f.reached = some t) (hs : P s) : P t := by
  obtain ⟨a, u, rfl, hu⟩ := serviceString_fault h
  cases ht
  simpa [hu, loopState] using putString_keeps k.memRead k.outWrite (chars := chars) (fuel := stringFuel s) (a := s.x 0) hs

/-- What every shared operation keeps holds in the state that an instruction which never completes has reached. -/
theorem execFault {i : Instr} {s t : State} {f : Fault} (h : Machine.exec i s = .fault f) (ht : f.reached = some t)
    (hs : P s) : P t := by
  rcases exec_fault_cases h with h | h | h | h
  · obtain ⟨w, hw, rfl⟩ := serviceGetc_fault h
    cases ht
    exact k.inReadWaits _ _ hw (k.linkR7 hs)
  · obtain ⟨w, hw, rfl⟩ := serviceIn_fault h
    cases ht
    exact k.inReadWaits _ _ hw (k.outWrite _ _ (k.linkR7 hs))
  · exact k.stringFault h ht (k.linkR7 hs)
  · exact k.stringFault h ht (k.linkR7 hs)

/-- What every shared operation keeps holds in the state an instruction's outcome shows. -/
theorem execShown {i : Instr} {s t : State} (h : shown (Machine.exec i s) = some t) (hs : P s) : P t := by
  cases hx : Machine.exec i s with
  | next u =>
    rw [hx] at h
    cases h
    exact k.exec hx hs
  | fault f =>
    rw [hx] at h
    exact k.execFault hx h hs
  | refused r =>
    rw [hx] at h
    cases h

/-- What every shared operation keeps holds in the state a step's outcome shows. -/
theorem stepShown {s t : State} (h : shown (Machine.step s) = some t) (hs : P s) : P t := by
  cases hr : s.run with
  | running =>
    rw [step_of_running hr] at h
    exact k.execShown h (k.setPc _ _ (k.memRead _ _ hs))
  | halted => simp [Machine.step, stopReason, hr, shown, Fault.reached] at h
  | aborted => simp [Machine.step, stopReason, hr, shown, Fault.reached] at h

/-- What every shared operation keeps, every step keeps. -/
theorem step {s t : State} (h : Machine.step s = .next t) (hs : P s) : P t :=
  k.exec (step_cases h).2 (k.setPc _ _ (k.memRead _ _ hs))

end Kept

/-! ### `RUN` and `ABORT_CAUSE` -/

/-- `RUN` and `ABORT_CAUSE` are as in `s`. -/
def SameRun (s t : State) : Prop := t.run = s.run ∧ t.abortCause = s.abortCause

theorem inRead_sameRun {s t : State} {b : Byte} (h : inRead s = .ok (b, t)) : SameRun s t := by
  obtain ⟨rest, later, -, rfl⟩ := inRead_cases h
  exact ⟨rfl, rfl⟩

theorem serviceString_sameRun {chars : Word → List Byte} {s t : State} (h : serviceString chars s = .next t) :
    SameRun s t := by
  have := putString_keeps (P := SameRun s) (chars := chars) (fuel := stringFuel s) (a := s.x 0)
    (fun a u hu => ⟨by simpa using hu.1, by simpa using hu.2⟩) (fun _ _ hu => hu) ⟨rfl, rfl⟩
  rwa [serviceString_next h] at this

theorem serviceGetc_sameRun {s t : State} (h : serviceGetc s = .next t) : SameRun s t := by
  obtain ⟨b, s', hb, rfl⟩ := serviceGetc_next h
  obtain ⟨hr, hc⟩ := inRead_sameRun hb
  exact ⟨hr, hc⟩

theorem serviceIn_sameRun {s t : State} (h : serviceIn s = .next t) : SameRun s t := by
  obtain ⟨b, s', hb, rfl⟩ := serviceIn_next h
  obtain ⟨hr, hc⟩ := inRead_sameRun hb
  exact ⟨hr, hc⟩

/-- What an instruction can do to `RUN` and `ABORT_CAUSE`: nothing; HALTED, by HALT; or ABORTED with a cause, by RTI, RES
or an unknown vector under the policy `fatal` (10_state.md R39, R40). -/
theorem exec_run_cases {i : Instr} {s t : State} (h : exec i s = .next t) :
    SameRun s t ∨
      ((i = .halt ∨ i = .trap 0x25) ∧ t = haltEngine (outWrite s.params.haltNotice (linkR7 s))) ∨
      ((i = .rti ∨ i = .res) ∧ t = raiseFatal .illegalOpcode s) ∨
      ∃ vect, vect ∉ definedVectors ∧ i = .trap vect ∧ s.params.unknownTrapPolicy = .fatal ∧
        t = raiseFatal .unknownTrapVector (linkR7 s) := by
  cases i with
  | ld dr off => cases h; exact .inl ⟨by simp [loadInto], by simp [loadInto]⟩
  | ldr dr base off => cases h; exact .inl ⟨by simp [loadInto], by simp [loadInto]⟩
  | ldi dr off => cases h; exact .inl ⟨by simp [loadInto, indirect], by simp [loadInto, indirect]⟩
  | sti sr off => cases h; exact .inl ⟨by simp [indirect], by simp [indirect]⟩
  | br nzp off =>
    cases h
    left
    split <;> exact ⟨rfl, rfl⟩
  | rti => cases h; exact .inr (.inr (.inl ⟨.inl rfl, rfl⟩))
  | res => cases h; exact .inr (.inr (.inl ⟨.inr rfl, rfl⟩))
  | halt => cases h; exact .inr (.inl ⟨.inl rfl, rfl⟩)
  | getc => exact .inl (serviceGetc_sameRun (s := linkR7 s) h)
  | inChar => exact .inl (serviceIn_sameRun (s := linkR7 s) h)
  | puts => exact .inl (serviceString_sameRun (s := linkR7 s) h)
  | putsp => exact .inl (serviceString_sameRun (s := linkR7 s) h)
  | trap vect =>
    have h' : trapService vect (linkR7 s) = .next t := h
    unfold trapService at h'
    split_ifs at h' with h1 h2 h3 h4 h5 h6
    · exact .inl (serviceGetc_sameRun (s := linkR7 s) h')
    · cases h'; exact .inl ⟨rfl, rfl⟩
    · exact .inl (serviceString_sameRun (s := linkR7 s) h')
    · exact .inl (serviceIn_sameRun (s := linkR7 s) h')
    · exact .inl (serviceString_sameRun (s := linkR7 s) h')
    · subst h6
      cases h'
      exact .inr (.inl ⟨.inr rfl, rfl⟩)
    · obtain ⟨hp, rfl⟩ | ⟨-, rfl⟩ := serviceUnknown_next h'
      · exact .inr (.inr (.inr ⟨vect, by simp [definedVectors]; tauto, rfl, hp, rfl⟩))
      · exact .inl ⟨rfl, rfl⟩
  | addReg dr sr1 sr2 => cases h; exact .inl ⟨rfl, rfl⟩
  | addImm dr sr1 imm => cases h; exact .inl ⟨rfl, rfl⟩
  | andReg dr sr1 sr2 => cases h; exact .inl ⟨rfl, rfl⟩
  | andImm dr sr1 imm => cases h; exact .inl ⟨rfl, rfl⟩
  | not dr sr => cases h; exact .inl ⟨rfl, rfl⟩
  | lea dr off => cases h; exact .inl ⟨rfl, rfl⟩
  | st sr off => cases h; exact .inl ⟨rfl, rfl⟩
  | str sr base off => cases h; exact .inl ⟨rfl, rfl⟩
  | jmp base => cases h; exact .inl ⟨rfl, rfl⟩
  | ret => cases h; exact .inl ⟨rfl, rfl⟩
  | jsr off => cases h; exact .inl ⟨rfl, rfl⟩
  | jsrr base => cases h; exact .inl ⟨rfl, rfl⟩
  | out => cases h; exact .inl ⟨rfl, rfl⟩

/-! ### Runs with an environment -/

/-- A run with an environment that comes to a state reaches it, so an invariant of reachable states holds there
(00_scope.md R7). -/
theorem runWith_reaches {env : Nat → Supply} {s t : State} :
    ∀ {k : Nat}, runWith env k s = .next t → Reaches s t
  | 0, h => by
    cases h
    exact .refl s
  | k + 1, h => by
    rw [runWith] at h
    split at h
    · rename_i u hu
      exact .tail (.supply (env k) (runWith_reaches hu)) h
    · cases h
    · cases h

/-- What every step and every turn of the environment keeps holds in every state reached. -/
theorem Reaches.keeps {P : State → Prop} (hstep : ∀ s t, P s → step s = .next t → P t)
    (hsupply : ∀ s e, P s → P (s.supply e)) {s t : State} (h : Reaches s t) (hs : P s) : P t := by
  induction h with
  | refl => exact hs
  | tail _ ht ih => exact hstep _ _ ih ht
  | supply e _ ih => exact hsupply _ e ih

end Sys2Proof.Machine
end

