-- ==== Sys2Proof/Laws/PerInstr.lean ====
section
/-! SUPPORT. A law stated once for each instruction: its encoded word selects its own row of the decode table
(30_encoding.md R96). -/

namespace Sys2Proof.Laws.RowMatch

/-- The encoder's word for `i` has the bits that `i`'s row of the decode table fixes. -/
def Statement (i : Instr) : Prop := encode i &&& (rowOf i).mask = (rowOf i).value

/-- Two words are equal if each of their 16 bits is. -/
theorem word_ext {v w : Word} (h : ∀ i : Fin 16, v.getLsbD i = w.getLsbD i) : v = w :=
  BitVec.eq_of_getLsbD_eq fun i hi => h ⟨i, hi⟩

theorem br (nzp : BitVec 3) (off : BitVec 9) : Statement (.br nzp off) :=
  word_ext fun i => by
    fin_cases i <;>
      simp only [encode, rowOf, BitVec.getLsbD_and, BitVec.getLsbD_append] <;>
      simp

theorem addReg (dr sr1 sr2 : Reg) : Statement (.addReg dr sr1 sr2) :=
  word_ext fun i => by
    fin_cases i <;>
      simp only [encode, rowOf, BitVec.getLsbD_and, BitVec.getLsbD_append] <;>
      simp

theorem addImm (dr sr1 : Reg) (imm : BitVec 5) : Statement (.addImm dr sr1 imm) :=
  word_ext fun i => by
    fin_cases i <;>
      simp only [encode, rowOf, BitVec.getLsbD_and, BitVec.getLsbD_append] <;>
      simp

theorem ld (dr : Reg) (off : BitVec 9) : Statement (.ld dr off) :=
  word_ext fun i => by
    fin_cases i <;>
      simp only [encode, rowOf, BitVec.getLsbD_and, BitVec.getLsbD_append] <;>
      simp

theorem st (sr : Reg) (off : BitVec 9) : Statement (.st sr off) :=
  word_ext fun i => by
    fin_cases i <;>
      simp only [encode, rowOf, BitVec.getLsbD_and, BitVec.getLsbD_append] <;>
      simp

theorem jsrr (base : Reg) : Statement (.jsrr base) :=
  word_ext fun i => by
    fin_cases i <;>
      simp only [encode, rowOf, BitVec.getLsbD_and, BitVec.getLsbD_append] <;>
      simp

theorem jsr (off : BitVec 11) : Statement (.jsr off) :=
  word_ext fun i => by
    fin_cases i <;>
      simp only [encode, rowOf, BitVec.getLsbD_and, BitVec.getLsbD_append] <;>
      simp

theorem andReg (dr sr1 sr2 : Reg) : Statement (.andReg dr sr1 sr2) :=
  word_ext fun i => by
    fin_cases i <;>
      simp only [encode, rowOf, BitVec.getLsbD_and, BitVec.getLsbD_append] <;>
      simp

theorem andImm (dr sr1 : Reg) (imm : BitVec 5) : Statement (.andImm dr sr1 imm) :=
  word_ext fun i => by
    fin_cases i <;>
      simp only [encode, rowOf, BitVec.getLsbD_and, BitVec.getLsbD_append] <;>
      simp

theorem ldr (dr base : Reg) (off : BitVec 6) : Statement (.ldr dr base off) :=
  word_ext fun i => by
    fin_cases i <;>
      simp only [encode, rowOf, BitVec.getLsbD_and, BitVec.getLsbD_append] <;>
      simp

theorem str (sr base : Reg) (off : BitVec 6) : Statement (.str sr base off) :=
  word_ext fun i => by
    fin_cases i <;>
      simp only [encode, rowOf, BitVec.getLsbD_and, BitVec.getLsbD_append] <;>
      simp

theorem rti : Statement .rti := by unfold Statement; decide

theorem not (dr sr : Reg) : Statement (.not dr sr) :=
  word_ext fun i => by
    fin_cases i <;>
      simp only [encode, rowOf, BitVec.getLsbD_and, BitVec.getLsbD_append] <;>
      simp

theorem ldi (dr : Reg) (off : BitVec 9) : Statement (.ldi dr off) :=
  word_ext fun i => by
    fin_cases i <;>
      simp only [encode, rowOf, BitVec.getLsbD_and, BitVec.getLsbD_append] <;>
      simp

theorem sti (sr : Reg) (off : BitVec 9) : Statement (.sti sr off) :=
  word_ext fun i => by
    fin_cases i <;>
      simp only [encode, rowOf, BitVec.getLsbD_and, BitVec.getLsbD_append] <;>
      simp

theorem jmp (base : Reg) : Statement (.jmp base) :=
  word_ext fun i => by
    fin_cases i <;>
      simp only [encode, rowOf, BitVec.getLsbD_and, BitVec.getLsbD_append] <;>
      simp

theorem ret : Statement .ret := by unfold Statement; decide

theorem res : Statement .res := by unfold Statement; decide

theorem lea (dr : Reg) (off : BitVec 9) : Statement (.lea dr off) :=
  word_ext fun i => by
    fin_cases i <;>
      simp only [encode, rowOf, BitVec.getLsbD_and, BitVec.getLsbD_append] <;>
      simp

theorem trap (vect : BitVec 8) : Statement (.trap vect) :=
  word_ext fun i => by
    fin_cases i <;>
      simp only [encode, rowOf, trapWord, BitVec.getLsbD_and, BitVec.getLsbD_append] <;>
      simp

theorem getc : Statement .getc := by unfold Statement; decide

theorem out : Statement .out := by unfold Statement; decide

theorem puts : Statement .puts := by unfold Statement; decide

theorem inChar : Statement .inChar := by unfold Statement; decide

theorem putsp : Statement .putsp := by unfold Statement; decide

theorem halt : Statement .halt := by unfold Statement; decide

/-- The law of every instruction, from its constructors'. -/
theorem all (i : Instr) : Statement i := by
  cases i with
  | br nzp off => exact br nzp off
  | addReg dr sr1 sr2 => exact addReg dr sr1 sr2
  | addImm dr sr1 imm => exact addImm dr sr1 imm
  | ld dr off => exact ld dr off
  | st sr off => exact st sr off
  | jsrr base => exact jsrr base
  | jsr off => exact jsr off
  | andReg dr sr1 sr2 => exact andReg dr sr1 sr2
  | andImm dr sr1 imm => exact andImm dr sr1 imm
  | ldr dr base off => exact ldr dr base off
  | str sr base off => exact str sr base off
  | rti => exact rti
  | not dr sr => exact not dr sr
  | ldi dr off => exact ldi dr off
  | sti sr off => exact sti sr off
  | jmp base => exact jmp base
  | ret => exact ret
  | res => exact res
  | lea dr off => exact lea dr off
  | trap vect => exact trap vect
  | getc => exact getc
  | out => exact out
  | puts => exact puts
  | inChar => exact inChar
  | putsp => exact putsp
  | halt => exact halt

end Sys2Proof.Laws.RowMatch
end

