-- ==== Sys2Proof/Laws/Strings.lean ====
section
/-! SUPPORT. When the loop of PUTS and PUTSP ends and when it never does (44_trap.md R154, R156; 60_exceptions.md R190):
the facts behind `stringFuel`. -/

namespace Sys2Proof.Machine

variable {chars : Word → List Byte}

/-! ### One read of the loop -/

/-- A read that gives a zero word ends the string. -/
theorem putString_ends_here {a : Word} {s : State} (h : (memRead a s).1 = 0x0000) (fuel : Nat) :
    putString chars (fuel + 1) a s = .ok (memRead a s).2 := by
  rw [putString, if_pos h]

/-- A read that gives any other word writes its characters and goes on. -/
theorem putString_goes_on {a : Word} {s : State} (h : (memRead a s).1 ≠ 0x0000) (fuel : Nat) :
    putString chars (fuel + 1) a s =
      putString chars fuel (a + 1) (outWrite (chars (memRead a s).1) (memRead a s).2) := by
  rw [putString, if_neg h]

/-- More fuel does not change how a string ends. -/
theorem putString_mono {f g : Nat} (hfg : f ≤ g) {a : Word} {s t : State} (h : putString chars f a s = .ok t) :
    putString chars g a s = .ok t := by
  induction f generalizing g a s with
  | zero => cases h
  | succ f ih =>
    obtain ⟨g, rfl⟩ : ∃ k, g = k + 1 := ⟨g - 1, by omega⟩
    by_cases hz : (memRead a s).1 = 0x0000
    · rw [putString_ends_here hz] at h ⊢
      exact h
    · rw [putString_goes_on hz] at h ⊢
      exact ih (by omega) h

/-- A loop that has not ended goes on from where it has come to. -/
theorem putString_resumes {f : Nat} {a b : Word} {s u : State} (h : putString chars f a s = .error (b, u)) (n : Nat) :
    putString chars (f + n) a s = putString chars n b u := by
  induction f generalizing a s with
  | zero =>
    cases h
    rw [Nat.zero_add]
  | succ f ih =>
    by_cases hz : (memRead a s).1 = 0x0000
    · rw [putString_ends_here hz] at h
      cases h
    · rw [putString_goes_on hz] at h
      rw [Nat.succ_add, putString_goes_on hz, ih h]

/-! ### Distances -/

/-- How many addresses lie from `a` to `b`, going up and wrapping at 0xFFFF. -/
def distance (a b : Word) : Nat := (b - a).toNat

theorem distance_lt (a b : Word) : distance a b < 65536 := (b - a).isLt

theorem distance_self (a : Word) : distance a a = 0 := by simp [distance]

/-- The next address is one nearer. -/
theorem distance_succ {a b : Word} (h : a ≠ b) : distance (a + 1) b + 1 = distance a b := by
  have : (b - a).toNat ≠ 0 := by
    intro h0
    have : b - a = 0#16 := BitVec.eq_of_toNat_eq h0
    apply h
    bv_omega
  unfold distance
  bv_omega

/-! ### The batches to come -/

/-- The next `k` batches of the environment: the schedule, then the refill again and again, or nothing. -/
def coming (refill : List (List Byte)) : Nat → List (List Byte) → List (List Byte)
  | 0, _ => []
  | k + 1, batch :: later => batch :: coming refill k later
  | k + 1, [] =>
    match refill with
    | [] => [] :: coming refill k []
    | batch :: later => batch :: coming refill k later

/-- A turn of the environment appends the next batch to come to `IN`. -/
theorem arrive_coming (s : State) (k : Nat) :
    ∃ batch, coming s.refill (k + 1) s.arrivals = batch :: coming s.refill k s.arrive.arrivals ∧
      s.arrive.inQueue = s.inQueue ++ batch := by
  obtain ⟨ha, hr, h⟩ | ⟨batch, later, h, ha | ⟨ha, hr⟩⟩ := arrive_cases s
  · exact ⟨[], by simp [h, ha, hr, coming], by simp [h]⟩
  · exact ⟨batch, by simp [h, ha, coming], by simp [h]⟩
  · exact ⟨batch, by simp [h, ha, hr, coming], by simp [h]⟩

theorem coming_length (refill : List (List Byte)) (k : Nat) (arr : List (List Byte)) :
    (coming refill k arr).length = k := by
  induction k generalizing arr with
  | zero => simp [coming]
  | succ k ih => cases arr <;> cases refill <;> simp [coming, ih]

/-- The schedule comes first. -/
theorem coming_schedule (refill : List (List Byte)) (k : Nat) (arr : List (List Byte)) :
    coming refill (arr.length + k) arr = arr ++ coming refill k [] := by
  induction arr with
  | nil => simp
  | cons batch arr ih =>
    rw [List.length_cons, Nat.succ_add]
    simp [coming, ih]

/-- Then the refill comes, and then it comes again. -/
theorem coming_round (refill : List (List Byte)) (k : Nat) :
    coming refill (refill.length + k) [] = refill ++ coming refill k [] := by
  cases refill with
  | nil => simp
  | cons batch later =>
    rw [List.length_cons, Nat.succ_add]
    simp [coming, coming_schedule]

/-- In `m` rounds of the refill its bytes come `m` times. -/
theorem coming_rounds_bytes (refill : List (List Byte)) (m : Nat) :
    (coming refill (m * refill.length) []).flatten.length = m * refill.flatten.length := by
  induction m with
  | zero => simp [coming]
  | succ m ih => rw [Nat.succ_mul, Nat.add_comm, coming_round, List.flatten_append, List.length_append, ih]; ring

/-- With no refill only the schedule's bytes come. -/
theorem coming_nil_bytes (k : Nat) (arr : List (List Byte)) :
    (coming [] k arr).flatten.length ≤ arr.flatten.length := by
  induction k generalizing arr with
  | zero => simp [coming]
  | succ k ih =>
    cases arr with
    | nil => simpa [coming] using ih []
    | cons batch arr => simpa [coming] using ih arr

/-! ### Running dry -/

/-- Taking a byte after each of these batches, from `n` bytes there, some take finds no byte. -/
def RunsDry : Nat → List (List Byte) → Prop
  | _, [] => False
  | n, batch :: later => n + batch.length = 0 ∨ RunsDry (n + batch.length - 1) later

/-- Fewer bytes than takes run dry. -/
theorem runsDry_of_short {n : Nat} {batches : List (List Byte)} (h : n + batches.flatten.length < batches.length) :
    RunsDry n batches := by
  induction batches generalizing n with
  | nil => simp at h
  | cons batch later ih =>
    by_cases h0 : n + batch.length = 0
    · exact .inl h0
    · simp only [List.flatten_cons, List.length_append, List.length_cons] at h
      exact .inr (ih (by omega))

/-- More bytes there run dry no sooner. -/
theorem runsDry_anti {n m : Nat} (hnm : n ≤ m) {batches : List (List Byte)} (h : RunsDry m batches) :
    RunsDry n batches := by
  induction batches generalizing n m with
  | nil => exact h
  | cons batch later ih =>
    obtain h | h := h
    · exact .inl (by omega)
    · exact .inr (ih (by omega) h)

/-- Through two lists of batches one after the other. -/
theorem runsDry_append {n : Nat} {l m : List (List Byte)} :
    RunsDry n (l ++ m) ↔ RunsDry n l ∨ RunsDry (n + l.flatten.length - l.length) m := by
  induction l generalizing n with
  | nil => simp [RunsDry]
  | cons batch later ih =>
    by_cases h0 : n + batch.length = 0
    · simp [RunsDry, h0]
    · simp only [List.cons_append, RunsDry, h0, false_or, ih, List.flatten_cons, List.length_append, List.length_cons]
      rw [show n + batch.length - 1 + later.flatten.length - later.length =
        n + (batch.length + later.flatten.length) - (later.length + 1) by omega]

/-! ### Strings that end -/

/-- A cell other than KBSR and KBDR that holds 0 ends the string when it is reached, if nothing ends it before. -/
theorem putString_ends_at_zero_cell {c : Word} (h₁ : c ≠ Config.kbsr) (h₂ : c ≠ Config.kbdr) {fuel : Nat} {a : Word}
    {s : State} (hc : s.cell c = 0x0000) (hf : distance a c < fuel) : ∃ t, putString chars fuel a s = .ok t := by
  induction fuel generalizing a s with
  | zero => omega
  | succ fuel ih =>
    by_cases hz : (memRead a s).1 = 0x0000
    · exact ⟨_, putString_ends_here hz fuel⟩
    · rw [putString_goes_on hz]
      have hac : a ≠ c := by
        rintro rfl
        rw [memRead_plain h₁] at hz
        exact hz hc
      have := distance_succ hac
      exact ih (by rw [outWrite_cell, memRead_cell_other _ _ h₁ h₂, hc]) (by omega)

/-- KBDR holding 0 ends the string when it is reached, if no poll comes before. -/
theorem putString_ends_at_zero_kbdr {fuel : Nat} {a : Word} {s : State} (hc : s.cell Config.kbdr = 0x0000)
    (hk : distance a Config.kbdr < distance a Config.kbsr) (hf : distance a Config.kbdr < fuel) :
    ∃ t, putString chars fuel a s = .ok t := by
  induction fuel generalizing a s with
  | zero => omega
  | succ fuel ih =>
    have hak : a ≠ Config.kbsr := by
      rintro rfl
      rw [distance_self] at hk
      omega
    by_cases hz : (memRead a s).1 = 0x0000
    · exact ⟨_, putString_ends_here hz fuel⟩
    · rw [putString_goes_on hz]
      rw [memRead_plain hak] at hz ⊢
      have had : a ≠ Config.kbdr := by
        rintro rfl
        exact hz hc
      have h1 := distance_succ hak
      have h2 := distance_succ had
      exact ih (by rwa [outWrite_cell]) (by omega) (by omega)

/-- When the input runs dry within `k` polls the string ends at the latest on the lap of that poll: each lap polls once,
and the poll that finds no byte reads 0x0000. -/
theorem putString_ends_when_dry {fuel k : Nat} {a : Word} {s : State}
    (hd : RunsDry s.inQueue.length (coming s.refill k s.arrivals)) (hf : 65536 * k + distance a Config.kbsr < fuel) :
    ∃ t, putString chars fuel a s = .ok t := by
  induction fuel generalizing a s k with
  | zero => omega
  | succ fuel ih =>
    by_cases hz : (memRead a s).1 = 0x0000
    · exact ⟨_, putString_ends_here hz fuel⟩
    · rw [putString_goes_on hz]
      by_cases ha : a = Config.kbsr
      · subst ha
        rw [memRead_kbsr] at hz ⊢
        obtain ⟨-, hp⟩ | ⟨b, rest, hq, hp⟩ := pollKeyboard_cases s
        · exact absurd (by rw [hp]; exact setCell_cell_same _ _ _) hz
        · cases k with
          | zero => exact hd.elim
          | succ k =>
            obtain ⟨batch, hcoming, hbatch⟩ := arrive_coming s k
            have hlen : s.inQueue.length + batch.length = rest.length + 1 := by
              rw [← List.length_append, ← hbatch, hq, List.length_cons]
            rw [hcoming] at hd
            obtain h0 | hd := hd
            · omega
            · have h2 := distance_lt (Config.kbsr + 1) Config.kbsr
              refine ih (k := k) ?_ (by omega)
              rw [show s.inQueue.length + batch.length - 1 = rest.length by omega] at hd
              simpa [hp] using hd
      · have h1 := distance_succ ha
        rw [memRead_plain ha]
        exact ih (k := k) hd (by omega)

/-- After a poll that took a 0 byte the string ends at KBDR. -/
theorem putString_ends_after_zero_byte {fuel : Nat} {s : State} (hc : s.cell Config.kbdr = 0x0000) (hf : 1 < fuel) :
    ∃ t, putString chars fuel (Config.kbsr + 1) s = .ok t :=
  putString_ends_at_zero_kbdr hc (by decide) (by simpa [distance, Config.kbdr, Config.kbsr] using hf)

/-- A 0 byte at place `z` of the bytes in `IN` and of the next `k` batches ends the string at the latest on the lap that
takes it. -/
theorem putString_ends_at_zero_byte {fuel k z : Nat} {a : Word} {s : State}
    (hb : (s.inQueue ++ (coming s.refill k s.arrivals).flatten)[z]? = some 0)
    (hf : 65536 * z + distance a Config.kbsr + 2 < fuel) : ∃ t, putString chars fuel a s = .ok t := by
  induction fuel generalizing a s z k with
  | zero => omega
  | succ fuel ih =>
    by_cases hz : (memRead a s).1 = 0x0000
    · exact ⟨_, putString_ends_here hz fuel⟩
    · rw [putString_goes_on hz]
      by_cases ha : a = Config.kbsr
      · subst ha
        rw [memRead_kbsr] at hz ⊢
        obtain ⟨-, hp⟩ | ⟨b, rest, hq, hp⟩ := pollKeyboard_cases s
        · exact absurd (by rw [hp]; exact setCell_cell_same _ _ _) hz
        · -- the bytes after the turn of the environment are those before it and the next batch
          have hstream : ∃ j, (b :: (rest ++ (coming s.refill j s.arrive.arrivals).flatten))[z]? = some 0 := by
            obtain ⟨batch, hcoming, hbatch⟩ := arrive_coming s (k - 1)
            rw [hq] at hbatch
            refine ⟨k - 1, ?_⟩
            rw [← List.cons_append, hbatch]
            cases k with
            | zero =>
              simp only [coming, List.flatten_nil, List.append_nil] at hb
              rw [List.append_assoc, List.getElem?_append_left]
              · exact hb
              · exact (List.getElem?_eq_some_iff.mp hb).1
            | succ k =>
              rw [Nat.add_sub_cancel] at hcoming ⊢
              rw [hcoming] at hb
              simpa using hb
          obtain ⟨j, hstream⟩ := hstream
          cases z with
          | zero =>
            have h0 : b = 0 := by simpa using hstream
            refine putString_ends_after_zero_byte ?_ (by omega)
            rw [outWrite_cell, hp]
            refine (setCell_cell_same _ _ _).trans ?_
            subst h0
            rfl
          | succ z =>
            have h2 := distance_lt (Config.kbsr + 1) Config.kbsr
            refine ih (z := z) (k := j) ?_ (by omega)
            rw [hp]
            simpa using hstream
      · have h1 := distance_succ ha
        rw [memRead_plain ha]
        exact ih (z := z) (k := k) hb (by omega)

/-! ### Strings that never end -/

/-- The input never runs dry and brings no 0 byte: the schedule and a first round of the refill do not run dry, and each
round brings at least a byte for each of its batches. -/
structure Sustained (s : State) : Prop where
  refill : s.refill ≠ []
  enough : s.refill.length ≤ s.refill.flatten.length
  not_dry : ¬ RunsDry s.inQueue.length (s.arrivals ++ s.refill)
  no_zero : (0 : Byte) ∉ s.inQueue ++ s.arrivals.flatten ++ s.refill.flatten

/-- Output does not touch the input. -/
theorem Sustained.outWrite {s : State} (h : Sustained s) (bs : List Byte) : Sustained (outWrite bs s) :=
  ⟨h.refill, h.enough, h.not_dry, h.no_zero⟩

/-- A poll of a sustained input finds a byte, not 0, and the input stays sustained. -/
theorem Sustained.poll {s : State} (h : Sustained s) :
    Sustained (pollKeyboard s) ∧ (pollKeyboard s).cell Config.kbsr ≠ 0x0000 ∧
      (pollKeyboard s).cell Config.kbdr ≠ 0x0000 := by
  obtain ⟨hr, he, hd, h0⟩ := h
  -- the next batch, what comes after it, and that `IN` holds a byte and does not run dry from here
  obtain ⟨batch, later, harr, hpos, hdry, hmem⟩ : ∃ batch later,
      s.arrive = { s with inQueue := s.inQueue ++ batch, arrivals := later } ∧ s.inQueue.length + batch.length ≠ 0 ∧
      ¬ RunsDry (s.inQueue.length + batch.length - 1) (later ++ s.refill) ∧
      (0 : Byte) ∉ s.inQueue ++ batch ++ later.flatten ++ s.refill.flatten := by
    obtain ⟨-, hn, -⟩ | ⟨batch, later, h, ha | ⟨ha, hb⟩⟩ := arrive_cases s
    · exact absurd hn hr
    · rw [ha, List.cons_append] at hd
      rw [ha] at h0
      exact ⟨batch, later, h, fun h => hd (.inl h), fun h => hd (.inr h), by simpa using h0⟩
    · rw [ha, List.nil_append, hb] at hd
      rw [hb] at he h0
      simp only [List.flatten_cons, List.length_append, List.length_cons] at he
      refine ⟨batch, later, h, fun h => hd (.inl h), fun h => ?_, fun hm => h0 ?_⟩
      swap
      · rw [hb] at hm
        simp only [ha, List.flatten_cons, List.mem_append] at hm ⊢
        tauto
      rw [hb] at h
      obtain h | h := runsDry_append.mp h
      · exact hd (.inr h)
      · exact hd (runsDry_anti (by omega) h)
  obtain ⟨hq, -⟩ | ⟨b, rest, hq, hp⟩ := pollKeyboard_cases s
  · rw [harr] at hq
    have hlen := congrArg List.length hq
    simp only [List.length_append, List.length_nil] at hlen
    exact absurd hlen hpos
  · have hq' : s.inQueue ++ batch = b :: rest := by rw [← hq, harr]
    have hlen := congrArg List.length hq'
    simp only [List.length_append, List.length_cons] at hlen
    have hin : (pollKeyboard s).inQueue = rest := by simp [hp]
    have hlater : (pollKeyboard s).arrivals = later := by simp [hp, harr]
    rw [hq'] at hmem
    have hb0 : zext8 b ≠ 0x0000 := by
      have hne : b ≠ 0 := fun h => hmem (by rw [h]; simp)
      clear * - hne
      revert b
      decide
    refine ⟨⟨by simpa using hr, by simpa using he, ?_, ?_⟩, ?_, ?_⟩
    · rw [hin, hlater, pollKeyboard_refill, show rest.length = s.inQueue.length + batch.length - 1 by omega]
      exact hdry
    · rw [hin, hlater, pollKeyboard_refill]
      exact fun h => hmem (List.mem_cons_of_mem _ h)
    · rw [hp, setCell_cell_other _ _ (by decide), setCell_cell_same]
      decide
    · rw [hp, setCell_cell_same]
      exact hb0

/-- With no plain cell zero, KBDR not zero unless a poll comes first, and a sustained input, the string never ends. -/
theorem putString_never_ends (fuel : Nat) {a : Word} {s : State}
    (hc : ∀ c, c ≠ Config.kbsr → c ≠ Config.kbdr → s.cell c ≠ 0x0000)
    (hd : distance a Config.kbdr < distance a Config.kbsr → s.cell Config.kbdr ≠ 0x0000) (hs : Sustained s) :
    ∃ reached, putString chars fuel a s = .error reached := by
  induction fuel generalizing a s with
  | zero => exact ⟨_, rfl⟩
  | succ fuel ih =>
    by_cases hk : a = Config.kbsr
    · subst hk
      obtain ⟨hs', h1, h2⟩ := hs.poll
      rw [putString_goes_on (by rw [memRead_kbsr]; exact h1), memRead_kbsr]
      exact ih (fun c h₁ h₂ => by rw [outWrite_cell, pollKeyboard_cell_other s h₁ h₂]; exact hc c h₁ h₂)
        (fun _ => h2) (hs'.outWrite _)
    · have hz : s.cell a ≠ 0x0000 := by
        by_cases hdr : a = Config.kbdr
        · subst hdr
          refine hd ?_
          decide
        · exact hc a hk hdr
      rw [putString_goes_on (by rw [memRead_plain hk]; exact hz), memRead_plain hk]
      refine ih hc (fun hlt => ?_) (hs.outWrite _)
      by_cases hdr : a = Config.kbdr
      · subst hdr
        exact hz
      · have h1 := distance_succ hk
        have h2 := distance_succ hdr
        exact hd (by omega)

end Sys2Proof.Machine
end

