-- ==== Sys2Proof/Tests/Slice0.lean ====
section
/-! SUPPORT. Tests on fixed values. Expected results are those of spec/95_test_vectors.md (the vector's name stands in the
test's comment) or are computed by hand from the rule cited; no expected result was read off the model. At the end, for
every obligation with hypotheses, a witness that they can be met together. -/

namespace Sys2Proof.Tests

open Sys2Proof Sys2Proof.Machine

/-! ### Helpers -/

/-- The default machine about to fetch the word `w` at `pc`. -/
def start (pc w : Word) : State := (State.reset.setPc pc).setCell pc w

/-- The same state with these bytes in `IN`. -/
def input (bs : List Byte) (s : State) : State := { s with inQueue := bs }

/-- The same state with this flag. -/
def flag (c : Cond) (s : State) : State := { s with cond := c }

/-- The same state with the policy `noop`. -/
def noop (s : State) : State := { s with params := { s.params with unknownTrapPolicy := .noop } }

/-- Whether one step gives a next state that passes `p`. -/
def after (s : State) (p : State → Bool) : Bool :=
  match step s with
  | .next t => p t
  | .fault _ | .refused _ => false

/-- Whether one step stops with a fault that passes `p`. -/
def stops (s : State) (p : Fault → Bool) : Bool :=
  match step s with
  | .fault f => p f
  | .next _ | .refused _ => false

/-- Whether a fault is a wait for input in a state that passes `p`. -/
def waits (p : State → Bool) : Fault → Bool
  | .inputHold waiting => p waiting
  | .engineHalted | .engineAborted | .stringNeverEnds _ _ => false

/-- Whether a launch of the default machine with these files is refused for this reason. -/
def refusesImage (files : List (List Byte)) (why : ImageError) : Bool :=
  match launch Config.defaultParams files [] [] [] with
  | .refused r => r == .illFormedImage why
  | .next _ | .fault _ => false

/-- Whether a launch of the default machine with these files gives a state that passes `p`. -/
def launches (files : List (List Byte)) (p : State → Bool) : Bool :=
  match launch Config.defaultParams files [] [] [] with
  | .next t => p t
  | .refused _ | .fault _ => false

/-! ### WellFormed: one ill-formed term for each check -/

theorem test_jmp_seven_is_ill_formed : ¬ (Instr.jmp 7).WellFormed := by decide

theorem test_trap_with_a_service_vector_is_ill_formed : ∀ v ∈ definedVectors, ¬ (Instr.trap v).WellFormed := by decide

theorem test_neighbours_are_well_formed :
    (Instr.jmp 6).WellFormed ∧ (Instr.trap 0x1F).WellFormed ∧ (Instr.trap 0x26).WellFormed := by decide

/-! ### Decoding: words written bit by bit from the formats of 30_encoding.md R84 -/

theorem test_decode_br : decode 0b0000_101_000010000 = .br 0b101 16 := by decide
theorem test_decode_addReg : decode 0b0001_001_010_000_011 = .addReg 1 2 3 := by decide
theorem test_decode_addImm : decode 0b0001_011_010_1_10000 = .addImm 3 2 0b10000 := by decide
theorem test_decode_ld : decode 0b0010_010_100000001 = .ld 2 0b100000001 := by decide
theorem test_decode_st : decode 0b0011_110_000000011 = .st 6 3 := by decide
theorem test_decode_jsrr : decode 0b0100_0_00_101_000000 = .jsrr 5 := by decide
theorem test_decode_jsr : decode 0b0100_1_10000000000 = .jsr 0b10000000000 := by decide
theorem test_decode_andReg : decode 0b0101_111_000_000_100 = .andReg 7 0 4 := by decide
theorem test_decode_andImm : decode 0b0101_000_001_1_01111 = .andImm 0 1 15 := by decide
theorem test_decode_ldr : decode 0b0110_010_011_100000 = .ldr 2 3 0b100000 := by decide
theorem test_decode_str : decode 0b0111_000_110_111111 = .str 0 6 0b111111 := by decide
theorem test_decode_rti : decode 0b1000_000000000000 = .rti := by decide
theorem test_decode_not : decode 0b1001_011_001_111111 = .not 3 1 := by decide
theorem test_decode_ldi : decode 0b1010_011_000000001 = .ldi 3 1 := by decide
theorem test_decode_sti : decode 0b1011_001_000000101 = .sti 1 5 := by decide
theorem test_decode_jmp : decode 0b1100_000_010_000000 = .jmp 2 := by decide
theorem test_decode_ret : decode 0b1100_000_111_000000 = .ret := by decide
theorem test_decode_res : decode 0b1101_101010111100 = .res := by decide
theorem test_decode_lea : decode 0b1110_000_100000000 = .lea 0 0b100000000 := by decide
theorem test_decode_trap : decode 0b1111_0000_00011111 = .trap 0x1F ∧ decode 0b1111_0000_11111111 = .trap 0xFF := by
  decide
theorem test_decode_services :
    decode 0b1111_0000_00100000 = .getc ∧ decode 0b1111_0000_00100001 = .out ∧
      decode 0b1111_0000_00100010 = .puts ∧ decode 0b1111_0000_00100011 = .inChar ∧
      decode 0b1111_0000_00100100 = .putsp ∧ decode 0b1111_1111_00100101 = .halt := by decide
theorem test_decode_table_word :
    decodeTableWord 16 0x123D = some (.addImm 1 0 0b11101) ∧ decodeTableWord 24 0x123D = none := by decide

/-- The encoder writes the conventional words of the spec's vectors (A1, A5, A13, B4, B6, B7, B10, T12). -/
theorem test_encode :
    encode (.addReg 1 2 3) = 0x1283 ∧ encode (.addImm 3 3 0b10000) = 0x16F0 ∧ encode (.not 3 1) = 0x967F ∧
      encode (.jmp 2) = 0xC080 ∧ encode .ret = 0xC1C0 ∧ encode (.jsr 0b10000000000) = 0x4C00 ∧
      encode (.jsrr 2) = 0x4080 ∧ encode .halt = 0xF025 := by decide

/-! ### Reset and memory -/

/-- 10_state.md R43; 70_reset_and_hazards.md R210. -/
theorem test_reset : State.reset.pc = 0x3000 ∧ State.reset.cond = .zero ∧ State.reset.x 7 = 0 ∧
    State.reset.cell 0xFE00 = 0 ∧ State.reset.run = .running := by decide

theorem test_reset_memory_canonical : Memory.wf State.reset.mem := by decide

/-- Writing what an unlisted cell reads as removes the entry. -/
theorem test_write_keeps_canonical_form :
    Memory.write (Memory.write (Memory.write [] 5 1) 3 2) 5 0 = [(3, 2)] ∧
      Memory.write (Memory.write [] 5 1) 3 2 = [(3, 2), (5, 1)] := by decide

/-! ### ALU -/

/-- A1: signed overflow wraps. -/
theorem test_addReg_wraps : after (((start 0x3000 0x1283).setX 2 0x7FFF).setX 3 0x0001)
    (fun t => t.x 1 == 0x8000 && t.cond == .negative && t.pc == 0x3001) = true := by decide
/-- A6: ignored bits 4:3 set. -/
theorem test_addReg_ignored_bits : after (((start 0x3000 0x129B).setX 2 0x7FFF).setX 3 0x0001)
    (fun t => t.x 1 == 0x8000 && t.cond == .negative) = true := by decide
/-- A5: the smallest immediate. -/
theorem test_addImm_smallest : after ((start 0x3000 0x16F0).setX 3 0x000F)
    (fun t => t.x 3 == 0xFFFF && t.cond == .negative) = true := by decide
/-- A4: the largest immediate, a carry out dropped. -/
theorem test_addImm_largest : after ((start 0x3000 0x14AF).setX 2 0xFFF1)
    (fun t => t.x 2 == 0x0000 && t.cond == .zero) = true := by decide
/-- A8. -/
theorem test_andReg : after (((start 0x3000 0x5042).setX 1 0xF0F0).setX 2 0xFF00)
    (fun t => t.x 0 == 0xF000 && t.cond == .negative) = true := by decide
/-- A11: the immediate is sign-extended. -/
theorem test_andImm_mask : after ((start 0x3000 0x52B0).setX 2 0xABCD)
    (fun t => t.x 1 == 0xABC0 && t.cond == .negative) = true := by decide
/-- A9. -/
theorem test_andImm_clears : after (flag .negative ((start 0x3000 0x5020).setX 0 0xABCD))
    (fun t => t.x 0 == 0x0000 && t.cond == .zero) = true := by decide
/-- A13. -/
theorem test_not : after ((start 0x3000 0x967F).setX 1 0x0008)
    (fun t => t.x 3 == 0xFFF7 && t.cond == .negative) = true := by decide
/-- A17. -/
theorem test_not_positive : after ((start 0x3000 0x903F).setX 0 0x8000)
    (fun t => t.x 0 == 0x7FFF && t.cond == .positive) = true := by decide

/-! ### Control -/

/-- The BR table, mask 001 with COND P. -/
theorem test_br_taken : after (flag .positive (start 0x3000 0x0210)) (fun t => t.pc == 0x3011) = true := by decide
/-- The BR table, mask 101 with COND Z. -/
theorem test_br_not_taken : after (flag .zero (start 0x3000 0x0A10)) (fun t => t.pc == 0x3001) = true := by decide
/-- B5: ignored bits set. -/
theorem test_jmp : after ((start 0x3000 0xCEBF).setX 2 0x4000) (fun t => t.pc == 0x4000 && t.x 7 == 0) = true := by
  decide
/-- B6. -/
theorem test_ret : after ((start 0x3000 0xC1C0).setX 7 0x3004) (fun t => t.pc == 0x3004 && t.x 7 == 0x3004) = true := by
  decide
/-- B7. -/
theorem test_jsr_backward : after (start 0x3010 0x4C00) (fun t => t.x 7 == 0x3011 && t.pc == 0x2C11) = true := by decide
/-- B8. -/
theorem test_jsr_forward : after (start 0x3010 0x4BFF) (fun t => t.x 7 == 0x3011 && t.pc == 0x3410) = true := by decide
/-- B12: ignored bits set. -/
theorem test_jsrr : after ((start 0x3006 0x46BF).setX 2 0x300A) (fun t => t.x 7 == 0x3007 && t.pc == 0x300A) = true := by
  decide
/-- B11: the link is written before the base is read. -/
theorem test_jsrr_seven : after ((start 0x3006 0x41C0).setX 7 0x5000)
    (fun t => t.x 7 == 0x3007 && t.pc == 0x3007) = true := by decide

/-! ### Loads -/

/-- L2: the address wraps. -/
theorem test_ld_wraps : after ((start 0xFFF0 0x20FF).setCell 0x00F0 0xBEEF)
    (fun t => t.x 0 == 0xBEEF && t.cond == .negative) = true := by decide
/-- L3: a read of the keyboard status with a byte ready. -/
theorem test_ld_polls : after (input [0x41] (start 0xFDFF 0x2200))
    (fun t => t.x 1 == 0x8000 && t.cond == .negative && t.cell 0xFE00 == 0x8000 && t.cell 0xFE02 == 0x0041 &&
      t.inQueue == []) = true := by decide
/-- S5. -/
theorem test_ldi : after (((start 0x2FFE 0xA601).setCell 0x3000 0x4000).setCell 0x4000 0x002A)
    (fun t => t.x 3 == 0x002A && t.cond == .positive && t.pc == 0x2FFF) = true := by decide
/-- L7: a read of the keyboard data has no side effect. -/
theorem test_ldi_keyboard_data :
    after ((((start 0x3000 0xA001).setCell 0x3002 0xFE02).setCell 0xFE02 0x0061).setCell 0xFE00 0x8000)
      (fun t => t.x 0 == 0x0061 && t.cond == .positive && t.cell 0xFE00 == 0x8000 && t.cell 0xFE02 == 0x0061 &&
        t.portLog == []) = true := by decide
/-- L8: the base is read before the destination is written. -/
theorem test_ldr_same_register : after (((start 0x3000 0x6480).setX 2 0x4000).setCell 0x4000 0x4005)
    (fun t => t.x 2 == 0x4005 && t.cond == .positive) = true := by decide
/-- L9. -/
theorem test_ldr_wraps : after (((start 0x3000 0x6060).setX 1 0x0010).setCell 0xFFF0 0x8001)
    (fun t => t.x 0 == 0x8001 && t.cond == .negative) = true := by decide
/-- L12. -/
theorem test_lea_wraps : after (flag .positive (start 0xFFFE 0xE001))
    (fun t => t.x 0 == 0x0000 && t.cond == .zero) = true := by decide
/-- L13: no memory access. -/
theorem test_lea_does_not_poll : after (input [0x41] (start 0xFDFF 0xE000))
    (fun t => t.x 0 == 0xFE00 && t.cond == .negative && t.inQueue == [0x41] && t.cell 0xFE00 == 0x0000) = true := by
  decide

/-! ### Stores -/

/-- S5v: an ST over its own word. -/
theorem test_st_over_itself : after ((start 0x3000 0x31FF).setX 0 0x1234)
    (fun t => t.cell 0x3000 == 0x1234 && t.pc == 0x3001) = true := by decide
/-- S1v. -/
theorem test_st_keeps_flags : after (flag .negative ((start 0x3006 0x3003).setX 0 0x002A))
    (fun t => t.cell 0x300A == 0x002A && t.cond == .negative) = true := by decide
/-- S2v. -/
theorem test_sti : after (((start 0x3004 0xB005).setX 0 0x0061).setCell 0x300A 0x3100)
    (fun t => t.cell 0x3100 == 0x0061 && t.cell 0x300A == 0x3100) = true := by decide
/-- S7v: the pointer cell is the keyboard status. -/
theorem test_sti_pointer_polls : after (input [0x6B] ((start 0xFDFE 0xB001).setX 0 0x7777))
    (fun t => t.cell 0xFE00 == 0x8000 && t.cell 0xFE02 == 0x006B && t.cell 0x8000 == 0x7777 && t.inQueue == []) =
      true := by decide
/-- S4v: the same register is base and data. -/
theorem test_str_same_register : after ((start 0x3000 0x7240).setX 1 0x5000)
    (fun t => t.cell 0x5000 == 0x5000) = true := by decide
/-- S6v: a store to the keyboard status is plain. -/
theorem test_str_keyboard_status : after (input [0x41] (((start 0x3000 0x7040).setX 1 0xFE00).setX 0 0x1234))
    (fun t => t.cell 0xFE00 == 0x1234 && t.inQueue == [0x41] && t.portLog == []) = true := by decide

/-! ### Traps -/

/-- T1. -/
theorem test_getc : after (input [0x62] (start 0x3005 0xF020))
    (fun t => t.x 7 == 0x3006 && t.x 0 == 0x0062 && t.cond == .positive && t.inQueue == [] && t.out == []) = true := by
  decide
/-- T4: the byte that arrives later completes the wait; with none ever the engine is stuck. -/
theorem test_getc_waits :
    after { start 0x3005 0xF020 with arrivals := [[], [0xFF]] } (fun t => t.x 0 == 0x00FF && t.cond == .positive) =
        true ∧
      stops (start 0x3000 0xF020) (waits fun w => w.x 7 == 0x3001 && w.pc == 0x3001 && w.run == .running) = true := by
  decide
/-- T5. -/
theorem test_out : after ((start 0x3000 0xF021).setX 0 0x1261)
    (fun t => t.out == [0x61] && t.x 7 == 0x3001 && t.x 0 == 0x1261) = true := by decide
/-- T7: low bytes only. -/
theorem test_puts_low_bytes :
    after ((((start 0x3000 0xF022).setX 0 0x3005).setCell 0x3005 0x4100).setCell 0x3006 0x0141)
      (fun t => t.out == [0x00, 0x41] && t.x 7 == 0x3001 && t.pc == 0x3001) = true := by decide
/-- T18: a string across the keyboard registers, a key ready. -/
theorem test_puts_across_the_keyboard :
    after (input [0x71] ((((start 0x3000 0xF022).setX 0 0xFDFF).setCell 0xFDFF 0x0041).setCell 0xFE01 0x0043))
      (fun t => t.out == [0x41, 0x00, 0x43, 0x71] && t.inQueue == []) = true := by decide
/-- T9: prompt, then echo. -/
theorem test_in : after (input [0x41] (start 0x3000 0xF023))
    (fun t => t.out == [0x45, 0x6E, 0x74, 0x65, 0x72, 0x20, 0x61, 0x20, 0x63, 0x68, 0x61, 0x72, 0x61, 0x63, 0x74, 0x65,
      0x72, 0x3A, 0x20, 0x41] && t.x 0 == 0x0041 && t.cond == .positive && t.inQueue == []) = true := by decide
/-- 44_trap.md R155: the prompt is visible before a wait that never ends. -/
theorem test_in_prompts_before_the_wait : stops (start 0x3000 0xF023)
    (waits fun w => w.out.length == 19 && w.out.take 5 == [0x45, 0x6E, 0x74, 0x65, 0x72] && w.x 7 == 0x3001) = true := by
  decide
/-- T11: the low byte always, the high byte unless 0x00. -/
theorem test_putsp :
    after (((((start 0x3000 0xF024).setX 0 0x3008).setCell 0x3008 0x4100).setCell 0x3009 0x0041).setCell 0x300A 0x4241)
      (fun t => t.out == [0x00, 0x41, 0x41, 0x41, 0x42]) = true := by decide
/-- T12. -/
theorem test_halt : after (start 0x3007 0xF025)
    (fun t => t.out == [0x48, 0x41, 0x4C, 0x54, 0x0A] && t.x 7 == 0x3008 && t.run == .halted && t.pc == 0x3008) =
      true := by decide
/-- T14 and T16. -/
theorem test_trap_unknown_fatal : after (start 0x3000 0xF026)
    (fun t => t.x 7 == 0x3001 && t.pc == 0x3001 && t.run == .aborted && t.abortCode == 2) = true := by decide
/-- T15. -/
theorem test_trap_unknown_noop : after (noop (start 0x3000 0xF000))
    (fun t => t.x 7 == 0x3001 && t.pc == 0x3001 && t.run == .running && t.abortCode == 0) = true := by decide

/-! ### Fatal opcodes, fetch, stops, images -/

/-- X1. -/
theorem test_rti : after (flag .positive ((start 0x3001 0x8000).setX 0 0x0001))
    (fun t => t.pc == 0x3002 && t.run == .aborted && t.abortCode == 1 && t.x 0 == 0x0001 && t.cond == .positive) =
      true := by decide
/-- X4. -/
theorem test_res : after (start 0x3000 0xDABC)
    (fun t => t.pc == 0x3001 && t.run == .aborted && t.abortCode == 1) = true := by decide
/-- X5: a fetch at 0xFE00 polls, and the word fetched is 0x8000 (RTI). -/
theorem test_fetch_polls_ready : after (input [0x78] (State.reset.setPc 0xFE00))
    (fun t => t.cell 0xFE00 == 0x8000 && t.cell 0xFE02 == 0x0078 && t.pc == 0xFE01 && t.abortCode == 1) = true := by
  decide
/-- X6: with no key the word fetched is 0x0000. -/
theorem test_fetch_polls_empty : after (start 0xFE00 0x1234)
    (fun t => t.cell 0xFE00 == 0x0000 && t.pc == 0xFE01 && t.run == .running) = true := by decide
/-- 10_state.md R39: no step from HALTED or ABORTED. -/
theorem test_no_step : stops (haltEngine State.reset) (· == .engineHalted) = true ∧
    stops (raiseFatal .illegalOpcode State.reset) (· == .engineAborted) = true := by decide
/-- 00_scope.md R7: a refill of an empty batch and one byte makes polls answer ready and not ready in turn, without end:
after two polls the schedule starts again. -/
theorem test_refill_alternates :
    (memRead 0xFE00 { State.reset with refill := [[], [0x41]] }).1 = 0x0000 ∧
      (memRead 0xFE00 (memRead 0xFE00 { State.reset with refill := [[], [0x41]] }).2).1 = 0x8000 ∧
      (memRead 0xFE00 (memRead 0xFE00 { State.reset with refill := [[], [0x41]] }).2).2.arrivals = [] := by decide
/-- 00_scope.md R7: a byte sent between steps stands at the tail of `IN` after the step that follows. -/
theorem test_input_grows_between_steps :
    (match runWith (fun _ => ⟨[0x42], [], []⟩) 1 (input [0x41] State.reset) with
      | .next t => t.inQueue == [0x41, 0x42] && t.pc == 0x3001
      | .fault _ | .refused _ => false) = true := by decide
/-- S3, by the file's six bytes. -/
theorem test_image_load :
    launches [[0x30, 0x00, 0x12, 0x34, 0x56, 0x78]]
      (fun t => t.cell 0x3000 == 0x1234 && t.cell 0x3001 == 0x5678 && t.cell 0x3002 == 0 && t.cell 0x2FFF == 0 &&
        t.regs == State.reset.regs) = true := by decide
/-- 20_memory.md R73. -/
theorem test_image_refused :
    refusesImage [[0x30, 0x00, 0x12]] .oddLength = true ∧ refusesImage [[]] .tooShort = true ∧
      refusesImage [[0xFF, 0xFF, 0, 1, 0, 2]] .pastEnd = true ∧ launches [[0xFF, 0xFF, 0, 1]] (fun _ => true) = true := by
  decide

/-! ### Witnesses: each obligation's hypotheses are met together, clause by clause -/

theorem next_of_after {s : State} {p : State → Bool} (h : after s p = true) : ∃ t, step s = .next t ∧ p t = true := by
  unfold after at h
  split at h
  · exact ⟨_, ‹_›, h⟩
  · cases h
  · cases h

/-- Whether an instruction gives a next state. -/
def completes (i : Instr) (s : State) : Bool :=
  match exec i s with
  | .next _ => true
  | .fault _ | .refused _ => false

theorem next_of_completes {i : Instr} {s : State} (h : completes i s = true) : ∃ t, exec i s = .next t := by
  unfold completes at h
  split at h
  · exact ⟨_, ‹_›⟩
  · cases h
  · cases h

/-- Operands at the ends of their ranges. -/
theorem test_witness_DecodeOfEncodeIsTheInstruction :
    (Instr.jmp 6).WellFormed ∧ (Instr.trap 0xFF).WellFormed ∧ (Instr.addImm 7 0 0b10000).WellFormed := by decide

theorem test_witness_EveryWordSelectsItsRowAlone :
    ((Instr.addReg 0 0 0).WellFormed ∧ (0x1283 : Word) &&& (rowOf (.addReg 0 0 0)).mask = (rowOf (.addReg 0 0 0)).value) ∧
    ((Instr.jmp 0).WellFormed ∧ (0xC1C0 : Word) &&& (rowOf (.jmp 0)).mask = (rowOf (.jmp 0)).value) ∧
    ((Instr.trap 0).WellFormed ∧ (0xF025 : Word) &&& (rowOf (.trap 0)).mask = (rowOf (.trap 0)).value) := by decide

theorem test_witness_SignAndZeroExtension : 0 < 16 ∧ 15 < 16 ∧ min 15 4 ≠ 15 := by decide

theorem test_witness_StepRunsTheDecodedInstruction :
    ((start 0xFE00 0).run = .running ∧ decode (memRead (start 0xFE00 0).pc (input [1] (start 0xFE00 0))).1 = .rti) ∧
    ((start 0xFE01 0x1283).run = .running ∧ (start 0xFE01 0x1283).pc ≠ 0xFE00 ∧
      decode ((start 0xFE01 0x1283).cell (start 0xFE01 0x1283).pc) = .addReg 1 2 3) := by decide

theorem test_witness_NoStepFromHaltedOrAborted :
    (haltEngine State.reset).run = .halted ∧ (raiseFatal .illegalOpcode State.reset).run = .aborted ∧
      (haltEngine State.reset).run ≠ .running := by decide

theorem test_witness_PlacedWordIsRun : (start 0xFDFF 0).run = .running ∧ (start 0xFDFF 0).pc ≠ 0xFE00 := by decide

theorem test_witness_HaltedOnlyByHalt : ∃ t, step (start 0x3007 0xF025) = .next t ∧ t.run = .halted := by
  obtain ⟨t, h, hp⟩ := next_of_after (s := start 0x3007 0xF025) (p := fun t => t.run == .halted) (by decide)
  exact ⟨t, h, by simpa using hp⟩

/-- One for each of the two causes. -/
theorem test_witness_AbortedOnlyByFatalInstructions :
    (∃ t, step (start 0x3000 0x8000) = .next t ∧ t.run = .aborted) ∧
      ∃ t, step (start 0x3000 0xF026) = .next t ∧ t.run = .aborted := by
  obtain ⟨t, h, hp⟩ := next_of_after (s := start 0x3000 0x8000) (p := fun t => t.run == .aborted) (by decide)
  obtain ⟨u, k, kp⟩ := next_of_after (s := start 0x3000 0xF026) (p := fun t => t.run == .aborted) (by decide)
  exact ⟨⟨t, h, by simpa using hp⟩, u, k, by simpa using kp⟩

theorem test_witness_MemReadInterceptsKeyboardStatusOnly :
    (0xFDFF : Word) ≠ 0xFE00 ∧ (0xFE01 : Word) ≠ 0xFE00 ∧ State.reset.arrive.inQueue = [] ∧
      (input [0x41, 0x42] State.reset).arrive.inQueue = [0x41, 0x42] ∧
      ({ State.reset with arrivals := [[0x41]] } : State).arrive.inQueue = [0x41] := by decide

theorem test_witness_StoredKeyboardValues :
    FindsNoKey [0xFE00, 0xFE01, 0xFE00] (memWrite 0xFE02 0x1234 State.reset) ∧
      (input [0x41] State.reset).arrive.inQueue = [0x41] :=
  ⟨⟨fun _ => by decide, fun h => absurd h (by decide), fun _ => by decide, trivial⟩, by decide⟩

theorem test_witness_OnlyStoresWritePlainCells :
    ∃ t, step ((start 0x3000 0x3000).setX 0 5) = .next t ∧ (0x3001 : Word) ≠ 0xFE00 ∧ (0x3001 : Word) ≠ 0xFE02 ∧
      t.cell 0x3001 ≠ ((start 0x3000 0x3000).setX 0 5).cell 0x3001 := by
  obtain ⟨t, h, hp⟩ := next_of_after (s := (start 0x3000 0x3000).setX 0 5) (p := fun t => t.cell 0x3001 == 5) (by decide)
  refine ⟨t, h, by decide, by decide, ?_⟩
  rw [show t.cell 0x3001 = 5 by simpa using hp]
  decide

theorem test_witness_StoredInstructionIsFetched : State.reset.run = .running ∧ State.reset.pc ≠ 0xFE00 := by decide

theorem shown_of_after {s : State} {p : State → Bool} (h : after s p = true) :
    ∃ t, shown (step s) = some t ∧ p t = true := by
  obtain ⟨t, ht, hp⟩ := next_of_after h
  exact ⟨t, by rw [ht]; rfl, hp⟩

theorem shown_of_waits {s : State} {p : State → Bool} (h : stops s (waits p) = true) :
    ∃ t, shown (step s) = some t ∧ p t = true := by
  unfold stops at h
  split at h
  · rename_i f hf
    cases f with
    | inputHold w => exact ⟨w, by rw [hf]; rfl, h⟩
    | engineHalted => cases h
    | engineAborted => cases h
    | stringNeverEnds a u => cases h
  · cases h
  · cases h

/-- A step that takes one byte and leaves one, of each way to take a byte, and one that waits for ever. -/
theorem test_witness_EachInputByteIsTakenOnceInOrder :
    (∃ t, shown (step (input [1, 2] (start 0x3000 0xF020))) = some t ∧ (t.inQueue == [2]) = true) ∧
      (∃ t, shown (step (input [1, 2] (start 0x3000 0xF023))) = some t ∧ (t.inQueue == [2]) = true) ∧
      (∃ t, shown (step (input [1, 2] (start 0xFDFF 0x2200))) = some t ∧ (t.inQueue == [2]) = true) ∧
      ∃ t, shown (step (start 0x3000 0xF023)) = some t ∧ (t.inQueue == []) = true :=
  ⟨shown_of_after (p := fun t => t.inQueue == [2]) (by decide),
    shown_of_after (p := fun t => t.inQueue == [2]) (by decide),
    shown_of_after (p := fun t => t.inQueue == [2]) (by decide),
    shown_of_waits (p := fun t => t.inQueue == []) (by decide)⟩

theorem test_witness_OutputOnlyGrows :
    (∃ t, shown (step (start 0x3000 0xF025)) = some t ∧ (t.out.length == 5) = true) ∧
      ∃ t, shown (step (start 0x3000 0xF023)) = some t ∧ (t.out.length == 19) = true :=
  ⟨shown_of_after (p := fun t => t.out.length == 5) (by decide),
    shown_of_waits (p := fun t => t.out.length == 19) (by decide)⟩

/-- A schedule, a refill that starts, neither, and an empty `IN`. -/
theorem test_witness_InputMayArriveAtAnyMoment :
    ({ State.reset with arrivals := [[1], [2]] } : State).arrivals = [1] :: [[2]] ∧
      (({ State.reset with refill := [[], [2]] } : State).arrivals = [] ∧
        ({ State.reset with refill := [[], [2]] } : State).refill = [] :: [[2]]) ∧
      (State.reset.arrivals = [] ∧ State.reset.refill = []) ∧ State.reset.inQueue = [] := by decide

/-- One of each flag rule's three cases. -/
theorem test_witness_FlagRule :
    ((0x0000 : Word) = 0x0000) ∧ ((0x8000 : Word) ≠ 0x0000 ∧ (0x8000 : Word).getLsbD 15 = true) ∧
      ((0x7FFF : Word) ≠ 0x0000 ∧ (0x7FFF : Word).getLsbD 15 = false) := by decide

theorem test_witness_FlagsAreWrittenByTheListedInstructionsOnly :
    ((∃ t, exec (.addReg 1 2 3) State.reset = .next t) ∧ flagSource (.addReg 1 2 3) = some 1) ∧
      ((∃ t, exec (.trap 0x20) (input [1] State.reset) = .next t) ∧ flagSource (.trap 0x20) = some 0) ∧
      ((∃ t, exec (.st 1 2) State.reset = .next t) ∧ flagSource (.st 1 2) = none) :=
  ⟨⟨⟨_, rfl⟩, rfl⟩, ⟨⟨_, rfl⟩, rfl⟩, ⟨⟨_, rfl⟩, rfl⟩⟩

theorem test_witness_OnlyBranchesReadTheFlags :
    (∀ nzp off, Instr.addReg 1 2 3 ≠ .br nzp off) ∧ (∃ t, exec (.addReg 1 2 3) State.reset = .next t) ∧
      (∃ u, exec (.addReg 1 2 3) { State.reset with cond := .negative } = .next u) ∧
      flagSource (.addReg 1 2 3) ≠ none :=
  ⟨nofun, ⟨_, rfl⟩, ⟨_, rfl⟩, nofun⟩

theorem test_witness_RegistersWrittenAreTheListedOnes :
    (∃ t, exec .getc (input [1] State.reset) = .next t) ∧ (1 : Reg) ∉ writtenRegs .getc := ⟨⟨_, rfl⟩, by decide⟩

theorem test_witness_OnlyControlTransfersMoveThePc :
    isJump (.trap 0) = false ∧ ∃ t, exec (.trap 0) State.reset = .next t := ⟨rfl, ⟨_, rfl⟩⟩

theorem test_witness_NoInstructionFaultsButWaitsAndStrings :
    mayNotComplete (.ld 0 0) = false ∧ mayNotComplete (.trap 0x21) = false ∧ mayNotComplete (.trap 0x1F) = false := by
  decide

/-- A pointer that is read from the keyboard status, and data that is not. -/
theorem test_witness_LoadIndirectReadsTwice :
    ∃ s₁ s₂, memRead ((State.reset.setPc 0xFE00).pc + (0 : BitVec 9).signExtend 16) (State.reset.setPc 0xFE00) =
      (0x0000, s₁) ∧ memRead 0x0000 s₁ = (0x0000, s₂) := ⟨_, _, rfl, rfl⟩

theorem test_witness_LoadFrame :
    ((∃ t, exec (.ld 1 3) State.reset = .next t) ∧ 0xFE00 ∉ loadAddresses (.ld 1 3) State.reset) ∧
      ((∃ t, exec (.ldi 1 3) State.reset = .next t) ∧ 0xFE00 ∉ loadAddresses (.ldi 1 3) State.reset) ∧
      ((∃ t, exec (.ldr 1 2 3) State.reset = .next t) ∧ 0xFE00 ∉ loadAddresses (.ldr 1 2 3) State.reset) ∧
      ((∃ t, exec (.lea 1 0) (State.reset.setPc 0xFE00) = .next t) ∧
        0xFE00 ∉ loadAddresses (.lea 1 0) (State.reset.setPc 0xFE00)) :=
  ⟨⟨⟨_, rfl⟩, by decide⟩, ⟨⟨_, rfl⟩, by decide⟩, ⟨⟨_, rfl⟩, by decide⟩, ⟨⟨_, rfl⟩, by decide⟩⟩

theorem test_witness_StoreIndirectWritesWhereThePointerSays :
    ∃ s₁, memRead ((State.reset.setPc 0xFE00).pc + (0 : BitVec 9).signExtend 16) (State.reset.setPc 0xFE00) =
      (0x0000, s₁) := ⟨_, rfl⟩

/-- Each flag with its own mask bit, and each mask bit alone with another flag. -/
theorem test_witness_BranchTakenByMask :
    (flag .negative State.reset).cond = .negative ∧ (flag .zero State.reset).cond = .zero ∧
      (flag .positive State.reset).cond = .positive ∧
      ¬ ((flag .zero State.reset).cond = .negative ∧ (1 : BitVec 1) = 1 ∨
        (flag .zero State.reset).cond = .zero ∧ (0 : BitVec 1) = 1 ∨
        (flag .zero State.reset).cond = .positive ∧ (1 : BitVec 1) = 1) := by decide

theorem test_witness_JsrrLinksBeforeItReadsTheBase : (6 : Reg) ≠ 7 ∧ (0 : Reg) ≠ 7 := by decide

theorem test_witness_TrapDispatchesByVector :
    (0x1F : BitVec 8) ∉ definedVectors ∧ (0x26 : BitVec 8) ∉ definedVectors ∧ (0xFF : BitVec 8) ∉ definedVectors := by
  decide

theorem test_witness_GetcReadsOneByte :
    (input [0xFF] State.reset).inQueue = [0xFF] ∧
      ({ State.reset with arrivals := [[], [], [7, 8], [9]] } : State).inQueue = [] ∧
      ({ State.reset with arrivals := [[], [], [7, 8], [9]] } : State).arrivals =
        List.replicate 2 [] ++ [7, 8] :: [[9]] ∧
      (∀ batch ∈ ({ State.reset with arrivals := [[]], refill := [[], [7]] } : State).arrivals, batch = []) ∧
      ({ State.reset with arrivals := [[]], refill := [[], [7]] } : State).refill =
        List.replicate 1 [] ++ [7] :: [] := by decide

theorem test_witness_InPromptsReadsAndEchoes :
    (input [0x41, 0x42] State.reset).inQueue = [0x41, 0x42] ∧
      ({ State.reset with arrivals := [[7]] } : State).inQueue = [] ∧
      ({ State.reset with arrivals := [[7]] } : State).arrivals = List.replicate 0 [] ++ [7] :: [] ∧
      (∀ batch ∈ ({ State.reset with refill := [[7], []] } : State).arrivals, batch = []) ∧
      ({ State.reset with refill := [[7], []] } : State).refill = List.replicate 0 [] ++ [7] :: [[]] := by decide

theorem test_witness_InputServicesHoldWithoutInput :
    ({ State.reset with arrivals := [[], []], refill := [[]] } : State).inQueue = [] ∧
      (∀ batch ∈ ({ State.reset with arrivals := [[], []], refill := [[]] } : State).arrivals, batch = []) ∧
      (∀ batch ∈ ({ State.reset with arrivals := [[], []], refill := [[]] } : State).refill, batch = []) := by decide

/-- A string across the top of memory: T17's cells. -/
def wrappedString : State :=
  ((State.reset.setX 0 0xFFFF).setCell 0xFFFF 0x0041).setCell 0x0000 0x4242

theorem wrappedString_holds : HoldsString wrappedString (wrappedString.x 0) [0x0041, 0x4242] := by
  refine ⟨fun j h => ?_, by decide, by decide⟩
  match j, h with
  | 0, _ => exact ⟨rfl, show (0x0041 : Word) ≠ 0x0000 by decide, by decide⟩
  | 1, _ => exact ⟨rfl, show (0x4242 : Word) ≠ 0x0000 by decide, by decide⟩

/-- T18's string: 0x0041 at 0xFDFF, the keyboard status with a key ready, 0x0043, the key's byte, and a zero word. -/
def crossingString : State :=
  input [0x71] (((State.reset.setX 0 0xFDFF).setCell 0xFDFF 0x0041).setCell 0xFE01 0x0043)

/-- The next word read is not zero. -/
theorem reads_next {chars : Word → List Byte} {a w : Word} {s t : State} {ws : List Word}
    (hw : (memRead a s).1 = w) (hz : w ≠ 0x0000)
    (h : ReadsString chars (a + 1) (outWrite (chars (memRead a s).1) (memRead a s).2) ws t) :
    ReadsString chars a s (w :: ws) t := by
  subst hw
  exact .char hz h

theorem crossingString_reads (chars : Word → List Byte) :
    ∃ t, ReadsString chars (crossingString.x 0) (linkR7 crossingString) [0x0041, 0x8000, 0x0043, 0x0071] t :=
  ⟨_, reads_next rfl (by decide) (reads_next rfl (by decide) (reads_next rfl (by decide)
    (reads_next rfl (by decide) (.stop rfl))))⟩

theorem test_witness_PutsWritesTheString :
    HoldsString wrappedString (wrappedString.x 0) [0x0041, 0x4242] ∧
      (∃ t, ReadsString lowByteOf (crossingString.x 0) (linkR7 crossingString) [0x0041, 0x8000, 0x0043, 0x0071] t) ∧
      ∃ t, exec .puts crossingString = .next t :=
  ⟨wrappedString_holds, crossingString_reads _, next_of_completes (by decide)⟩

theorem test_witness_PutspWritesThePackedString :
    HoldsString wrappedString (wrappedString.x 0) [0x0041, 0x4242] ∧
      ((0x0041 : Word).extractLsb' 8 8 = 0x00#8 ∧ (0x4242 : Word).extractLsb' 8 8 ≠ 0x00#8) ∧
      (∃ t, ReadsString packedBytesOf (crossingString.x 0) (linkR7 crossingString) [0x0041, 0x8000, 0x0043, 0x0071] t) ∧
      ∃ t, exec .putsp crossingString = .next t :=
  ⟨wrappedString_holds, by decide, crossingString_reads _, next_of_completes (by decide)⟩

theorem test_witness_StringServicesEndWhenInputRunsOut :
    (∀ batch ∈ wrappedString.refill, batch = []) ∧
      ({ wrappedString with refill := [[], [1], [2]] } : State).refill.flatten.length <
        ({ wrappedString with refill := [[], [1], [2]] } : State).refill.length := by decide

/-- Memory with every cell of the first `n` at 0x0001. -/
def onesMem (n : Nat) : Memory := (List.range n).map fun a => (a, 0x0001)

theorem onesMem_read {n a : Nat} (h : a < n) : Memory.read (onesMem n) a = 0x0001 := by
  have key : ∀ l : List Nat, a ∈ l → Memory.read (l.map fun a => (a, (0x0001 : Word))) a = 0x0001 := by
    intro l
    induction l with
    | nil => simp
    | cons k l ih =>
      intro hm
      rw [List.map_cons, Memory.read]
      by_cases hk : k = a
      · rw [if_pos hk]
      · rw [if_neg hk]
        exact ih ((List.mem_cons.mp hm).resolve_left fun h => hk h.symm)
  exact key _ (List.mem_range.mpr h)

theorem onesMem_read_ne (a : Word) : Memory.read (onesMem 65536) a.toNat ≠ 0x0000 := by
  rw [onesMem_read a.isLt]
  decide

/-- Memory `m`, and the input sends the byte 0x01 for ever. -/
def endless (m : Memory) : State := { State.reset with mem := m, refill := [[0x01]] }

theorem endless_sustained (m : Memory) : Sustained (linkR7 (endless m)) where
  refill := nofun
  enough := show [[(0x01 : Byte)]].length ≤ [[(0x01 : Byte)]].flatten.length by decide
  not_dry := by
    rintro (h | h)
    · exact absurd h (show ¬ (0 + [(0x01 : Byte)].length = 0) by decide)
    · exact h
  no_zero := show (0 : Byte) ∉ [] ++ [].flatten ++ [[(0x01 : Byte)]].flatten by decide

theorem endless_stops {m : Memory} (hm : ∀ a : Word, Memory.read m a.toNat ≠ 0x0000) :
    (∃ a u, exec .puts (endless m) = .fault (.stringNeverEnds a u)) ∧
      ∃ a u, exec .putsp (endless m) = .fault (.stringNeverEnds a u) := by
  have h (chars : Word → List Byte) : ∃ a u, serviceString chars (linkR7 (endless m)) = .fault (.stringNeverEnds a u) := by
    obtain ⟨⟨a, u⟩, hp⟩ := putString_never_ends (chars := chars) (stringFuel (linkR7 (endless m)))
      (a := (linkR7 (endless m)).x 0) (s := linkR7 (endless m)) (fun c _ _ => hm c) (fun _ => hm _) (endless_sustained m)
    exact ⟨a, u, by rw [serviceString, hp]⟩
  exact ⟨h putsChars, h putspChars⟩

theorem endless_meets {m : Memory} (hm : ∀ a : Word, Memory.read m a.toNat ≠ 0x0000) :
    (∀ a, a ≠ 0xFE00 → (endless m).cell a ≠ 0x0000) ∧
      (∀ batch ∈ (endless m).arrivals, batch ≠ [] ∧ (0 : Byte) ∉ batch) ∧
      (∀ batch ∈ (endless m).refill, batch ≠ [] ∧ (0 : Byte) ∉ batch) ∧ (endless m).refill ≠ [] ∧
      (0 : Byte) ∉ (endless m).inQueue :=
  ⟨fun a _ => hm a, show ∀ batch ∈ [], batch ≠ [] ∧ (0 : Byte) ∉ batch by decide,
    show ∀ batch ∈ [[(0x01 : Byte)]], batch ≠ [] ∧ (0 : Byte) ∉ batch by decide, nofun,
    show (0 : Byte) ∉ [] by decide⟩

theorem test_witness_StringServicesDivergeOnEndlessInput :
    ∃ s : State, (∀ a, a ≠ 0xFE00 → s.cell a ≠ 0x0000) ∧ (∀ batch ∈ s.arrivals, batch ≠ [] ∧ (0 : Byte) ∉ batch) ∧
      (∀ batch ∈ s.refill, batch ≠ [] ∧ (0 : Byte) ∉ batch) ∧ s.refill ≠ [] ∧ (0 : Byte) ∉ s.inQueue :=
  ⟨endless (onesMem 65536), endless_meets onesMem_read_ne⟩

theorem test_witness_StringStopMeansNeverEnds :
    ∃ s : State, (∃ a u, exec .puts s = .fault (.stringNeverEnds a u)) ∧
      ∃ a u, exec .putsp s = .fault (.stringNeverEnds a u) :=
  ⟨endless (onesMem 65536), endless_stops onesMem_read_ne⟩

theorem test_witness_UnknownTrapByPolicy :
    (0x00 : BitVec 8) ∉ definedVectors ∧ (0x26 : BitVec 8) ∉ definedVectors ∧
      State.reset.params.unknownTrapPolicy = .fatal ∧ (noop State.reset).params.unknownTrapPolicy = .noop := by decide

/-- One of each kind: a service that reads, one that does not, HALT, a string, an unknown vector. -/
theorem test_witness_TrapFrame :
    (Instr.getc.WellFormed ∧ isTrap .getc = true ∧ ∃ t, exec .getc (input [1] State.reset) = .next t) ∧
      (Instr.out.WellFormed ∧ isTrap .out = true ∧ ∃ t, exec .out State.reset = .next t) ∧
      (Instr.halt.WellFormed ∧ isTrap .halt = true ∧ ∃ t, exec .halt State.reset = .next t) ∧
      (Instr.puts.WellFormed ∧ isTrap .puts = true ∧ ∃ t, exec .puts State.reset = .next t) ∧
      ((Instr.trap 0x26).WellFormed ∧ isTrap (.trap 0x26) = true ∧ ∃ t, exec (.trap 0x26) State.reset = .next t) :=
  ⟨⟨by decide, rfl, _, rfl⟩, ⟨by decide, rfl, _, rfl⟩, ⟨by decide, rfl, _, rfl⟩,
    ⟨by decide, rfl, next_of_completes (by decide)⟩,
    ⟨by decide, rfl, _, rfl⟩⟩

theorem test_witness_StepKeepsLegalStates :
    (start 0x3000 0x8000).Legal ∧ ∃ t, step (start 0x3000 0x8000) = .next t ∧ (t.run == .aborted) = true :=
  ⟨⟨by decide, by decide⟩, next_of_after (p := fun t => t.run == .aborted) (by decide)⟩

theorem test_witness_ParametersNeverChange : ∃ t, step (noop (start 0x3000 0xF000)) = .next t ∧
    (t.params.unknownTrapPolicy == .noop) = true :=
  next_of_after (p := fun t => t.params.unknownTrapPolicy == .noop) (by decide)

/-- A payload that ends at the last cell, a cell of it and a cell outside it. -/
theorem test_witness_ImageLoadPlacesThePayload :
    (0xFFFE : Word).toNat + [(0x1234 : Word), 0x5678].length ≤ 65536 ∧ 1 < [(0x1234 : Word), 0x5678].length ∧
      ∀ j, j < [(0x1234 : Word), 0x5678].length → (0xFFFD : Word) ≠ 0xFFFE + BitVec.ofNat 16 j := by decide

/-- Two images that overlap in one cell. -/
theorem test_witness_LaterImagesOverwrite :
    (0x3000 : Word).toNat + [(1 : Word), 2].length ≤ 65536 ∧ (0x3001 : Word).toNat + [(3 : Word), 4].length ≤ 65536 ∧
      (∀ k, k < [(3 : Word), 4].length → (0x3000 : Word) + BitVec.ofNat 16 0 ≠ 0x3001 + BitVec.ofNat 16 k) ∧
      (∀ j, j < [(1 : Word), 2].length → (0x3003 : Word) ≠ 0x3000 + BitVec.ofNat 16 j) ∧
      ∀ k, k < [(3 : Word), 4].length → (0x3003 : Word) ≠ 0x3001 + BitVec.ofNat 16 k := by decide

/-- A well-formed image before, and one of each ill-formed kind. -/
theorem test_witness_IllFormedImagesAreRefused :
    (∀ file ∈ [imageFile 0xFFFF [0x1234]], ∃ (origin : Word) (words : List Word),
      origin.toNat + words.length ≤ 65536 ∧ file = imageFile origin words) ∧
    ((([0x30] : List Byte).length < 2 ∧ IllFormedImage [0x30]) ∧
      (2 < ([1, 2, 3] : List Byte).length ∧ ([1, 2, 3] : List Byte).length % 2 = 1 ∧ IllFormedImage [1, 2, 3]) ∧
      65536 < (0xFFFF : Word).toNat + [(1 : Word), 2].length ∧ IllFormedImage (imageFile 0xFFFF [1, 2])) :=
  ⟨fun file h => ⟨0xFFFF, [0x1234], by decide, by simpa using h⟩,
    ⟨by decide, .inl (by decide)⟩, ⟨by decide, by decide, .inr (.inl (by decide))⟩,
    by decide, .inr (.inr ⟨0xFFFF, [1, 2], by decide, rfl⟩)⟩

theorem test_witness_LaunchIsLegal :
    Memory.wf Config.defaultParams.initMem ∧ ∃ t, launch Config.defaultParams [[0x30, 0x00, 0x12, 0x34]] [] [] [] = .next t :=
  ⟨by decide, ⟨_, rfl⟩⟩

end Sys2Proof.Tests
end

section
/-! SUPPORT. Proofs of the statements of 00_scope.md: the input stream and the output (R6, R7, R8), the parameters (R10),
extension of fields (R14), and the freedom of the input environment (R7). -/

namespace Sys2Proof.Machine

/-! ### The input stream -/

/-- The bytes still to be taken before the refill starts again: those in `IN`, then those of the schedule. -/
def State.streamLeft (s : State) : List Byte := s.inQueue ++ s.arrivals.flatten

/-- From `s` to `t` the port log only grew, and the stream of `s`, the refill begun again some number of times, is the
bytes the new port operations took, in order, and then the stream of `t` (00_scope.md R7). -/
structure TakesInOrder (s t : State) : Prop where
  refill : t.refill = s.refill
  stream : ∃ es n, t.portLog = s.portLog ++ es ∧
    s.streamLeft ++ (List.replicate n s.refill.flatten).flatten = es.filterMap PortEvent.taken ++ t.streamLeft

theorem TakesInOrder.refl (s : State) : TakesInOrder s s := ⟨rfl, [], 0, by simp, by simp⟩

/-- What the first part of a step took comes before what the second part took. -/
theorem TakesInOrder.trans {s t u : State} (hst : TakesInOrder s t) (htu : TakesInOrder t u) : TakesInOrder s u := by
  obtain ⟨hr, es, n, hlog, hstream⟩ := hst
  obtain ⟨hr', es', n', hlog', hstream'⟩ := htu
  refine ⟨hr'.trans hr, es ++ es', n + n', by simp [hlog, hlog'], ?_⟩
  calc s.streamLeft ++ (List.replicate (n + n') s.refill.flatten).flatten
      = (s.streamLeft ++ (List.replicate n s.refill.flatten).flatten) ++ (List.replicate n' t.refill.flatten).flatten := by
        rw [hr, List.replicate_add, List.flatten_append, List.append_assoc]
    _ = es.filterMap PortEvent.taken ++ (es'.filterMap PortEvent.taken ++ u.streamLeft) := by
        rw [hstream, List.append_assoc, hstream']
    _ = (es ++ es').filterMap PortEvent.taken ++ u.streamLeft := by
        rw [List.filterMap_append, List.append_assoc]

/-- A poll takes the head of `IN` after the environment's turn, or nothing if there is none (20_memory.md R53). -/
theorem pollKeyboard_takesInOrder (s : State) : TakesInOrder s (pollKeyboard s) := by
  refine ⟨pollKeyboard_refill s, ?_⟩
  obtain ⟨n, hn⟩ := arrive_stream s
  obtain ⟨hq, hp⟩ | ⟨b, rest, hq, hp⟩ := pollKeyboard_cases s
  · exact ⟨[.polled false], n, by simp [hp], by
      simpa [hp, State.streamLeft, PortEvent.taken, List.filterMap_cons] using hn⟩
  · exact ⟨[.polled true, .took b], n, by simp [hp], by
      simpa [hp, hq, State.streamLeft, PortEvent.taken, List.filterMap_cons] using hn⟩

theorem memRead_takesInOrder (a : Word) (s : State) : TakesInOrder s (memRead a s).2 := by
  obtain h | ⟨-, h⟩ := memRead_state a s <;> rw [h]
  · exact .refl s
  · exact pollKeyboard_takesInOrder s

/-- Output takes no input. -/
theorem outWrite_takesInOrder (bs : List Byte) (s : State) : TakesInOrder s (outWrite bs s) := by
  refine ⟨rfl, bs.map .wrote, 0, rfl, ?_⟩
  have htaken : (bs.map PortEvent.wrote).filterMap PortEvent.taken = [] := by simp [PortEvent.taken]
  simp [htaken, State.streamLeft]

/-- `InRead` takes the next byte of the stream. -/
theorem inRead_takesInOrder {s t : State} {b : Byte} (h : inRead s = .ok (b, t)) : TakesInOrder s t := by
  obtain ⟨rest, later, htake, rfl⟩ := inRead_cases h
  obtain ⟨n, hn⟩ := takeByte_stream htake
  exact ⟨rfl, [.took b], n, rfl, hn⟩

/-- A wait that never ends takes nothing: the schedule it used up holds no byte. -/
theorem inRead_waits_takesInOrder {s w : State} (h : inRead s = .error w) : TakesInOrder s w := by
  obtain ⟨rfl, -, harrivals, -⟩ := inRead_waits h
  exact ⟨rfl, [], 0, by simp, by simp [State.streamLeft, List.flatten_eq_nil_iff.mpr harrivals]⟩

/-- Every operation of an instruction takes input in order; those that are no port operation leave the stream alone. -/
theorem takesInOrder_kept (s : State) : Kept (TakesInOrder s) where
  setX _ _ _ h := ⟨h.refill, h.stream⟩
  setPc _ _ h := ⟨h.refill, h.stream⟩
  setCC _ _ h := ⟨h.refill, h.stream⟩
  memRead a _ h := h.trans (memRead_takesInOrder a _)
  memWrite _ _ _ h := ⟨h.refill, h.stream⟩
  outWrite bs _ h := h.trans (outWrite_takesInOrder bs _)
  inRead _ _ _ hread h := h.trans (inRead_takesInOrder hread)
  inReadWaits _ _ hwait h := h.trans (inRead_waits_takesInOrder hwait)
  raiseFatal _ _ h := ⟨h.refill, h.stream⟩
  haltEngine _ h := ⟨h.refill, h.stream⟩

theorem stepShown_takesInOrder {s t : State} (h : shown (step s) = some t) : TakesInOrder s t :=
  (takesInOrder_kept s).stepShown h (.refl s)

/-- Settles O16: every operation a step is made of takes input in order, and taking in order is transitive. -/
theorem eachInputByteIsTakenOnceInOrder : Obligations.EachInputByteIsTakenOnceInOrder := by
  unfold Obligations.EachInputByteIsTakenOnceInOrder
  intro s t h
  exact (stepShown_takesInOrder h).stream

/-- Settles O17: `OUT` is read off the port log, which only grows. -/
theorem outputOnlyGrows : Obligations.OutputOnlyGrows := by
  unfold Obligations.OutputOnlyGrows
  intro s t h
  obtain ⟨es, -, hlog, -⟩ := (stepShown_takesInOrder h).stream
  exact ⟨⟨es, hlog⟩, es.filterMap PortEvent.written, by simp [State.out, hlog]⟩

/-! ### The parameters -/

/-- The parameters and the refill are as in `s`. -/
def SameSettings (s t : State) : Prop := t.params = s.params ∧ t.refill = s.refill

/-- No operation an instruction is made of writes the parameters or the refill. -/
theorem sameSettings_kept (s : State) : Kept (SameSettings s) where
  setX _ _ _ h := h
  setPc _ _ h := h
  setCC _ _ h := h
  memRead _ _ h := by simpa [SameSettings] using h
  memWrite _ _ _ h := h
  outWrite _ _ h := h
  inRead _ _ _ hread h := by
    obtain ⟨rest, later, -, rfl⟩ := inRead_cases hread
    exact h
  inReadWaits _ _ hwait h := by
    obtain ⟨rfl, -⟩ := inRead_waits hwait
    exact h
  raiseFatal _ _ h := h
  haltEngine _ h := h

/-- Settles O56: every operation a step is made of leaves the parameters and the refill. -/
theorem parametersNeverChange : Obligations.ParametersNeverChange := by
  unfold Obligations.ParametersNeverChange
  intro s t h
  exact (sameSettings_kept s).step h ⟨rfl, rfl⟩

/-! ### Extension of fields -/

/-- A bit of a sign-extended field is the field's bit of that number, or the top bit above it (00_scope.md R14). -/
theorem sext_getLsbD {n : Nat} (hn : 0 < n) (v : BitVec n) {i : Nat} (hi : i < 16) :
    (sext v).getLsbD i = v.getLsbD (min i (n - 1)) := by
  unfold sext
  rw [BitVec.getLsbD_signExtend]
  by_cases hin : i < n
  · have hmin : min i (n - 1) = i := by omega
    simp [hi, hin, hmin]
  · have hmin : min i (n - 1) = n - 1 := by omega
    simp [hi, hin, hmin, BitVec.msb_eq_getLsbD_last]

/-- Truncating a sign-extended field gives it back. -/
theorem sext_truncate {n : Nat} (hn : n ≤ 16) (v : BitVec n) : (sext v).extractLsb' 0 n = v := by
  apply BitVec.eq_of_getLsbD_eq
  intro i hi
  have hmin : min i (n - 1) = i := by omega
  simp [hi, sext_getLsbD (by omega) v (show i < 16 by omega), hmin]

/-- `zext_8` puts the byte below eight 0 bits (00_scope.md R14). -/
theorem zext8_eq_append (b : Byte) : zext8 b = 0#8 ++ b := by
  simp [zext8, BitVec.setWidth_eq_append]

/-- Settles O5: bits of a sign extension and its truncation, at the four field widths, and `zext_8`. -/
theorem signAndZeroExtension : Obligations.SignAndZeroExtension := by
  unfold Obligations.SignAndZeroExtension
  exact ⟨fun v _ => sext_getLsbD (by decide) v, fun v _ => sext_getLsbD (by decide) v,
    fun v _ => sext_getLsbD (by decide) v, fun v _ => sext_getLsbD (by decide) v,
    sext_truncate (by decide), sext_truncate (by decide), sext_truncate (by decide), sext_truncate (by decide),
    zext8_eq_append⟩

/-! ### The input environment -/

/-- A turn of the environment that has a batch brings that batch and changes nothing else. -/
theorem arrive_of_batch {s : State} {batch : List Byte} {later : List (List Byte)}
    (h : s.arrivals = batch :: later ∨ s.arrivals = [] ∧ s.refill = batch :: later) :
    s.arrive = { s with inQueue := s.inQueue ++ batch, arrivals := later } := by
  obtain h | ⟨ha, hr⟩ := h
  · simp [State.arrive, h]
  · simp [State.arrive, ha, hr]

/-- A read of KBSR that finds no byte gives 0x0000 (20_memory.md R53). -/
theorem memRead_kbsr_empty {s : State} (h : s.arrive.inQueue = []) :
    memRead Config.kbsr s = (0x0000, pollKeyboard s) := by
  simp [memRead_kbsr, pollKeyboard_empty h]

/-- A read of KBSR that finds a byte gives 0x8000 (20_memory.md R53). -/
theorem memRead_kbsr_ready {s : State} {b : Byte} {rest : List Byte} (h : s.arrive.inQueue = b :: rest) :
    memRead Config.kbsr s = (0x8000, pollKeyboard s) := by
  rw [memRead_kbsr, pollKeyboard_ready h, setCell_cell_other _ _ (by decide), setCell_cell_same]
  rfl

/-- The environment that sends the wanted byte now, or none, and nothing more. -/
def supplyAnswer (answer : Option Byte) : Supply := ⟨answer.toList, [], []⟩

/-- The byte it sends is all there is in an empty `IN` when a poll looks. -/
theorem supplyAnswer_arrive {s : State} (h : s.inQueue = []) (answer : Option Byte) :
    (s.supply (supplyAnswer answer)).arrive.inQueue = answer.toList := by
  rw [arrive_of_no_supply rfl rfl]
  simp [State.supply, supplyAnswer, h]

/-- With `IN` empty, the read of KBSR finds the answer the environment sends. -/
theorem memRead_kbsr_supplyAnswer {s : State} (h : s.inQueue = []) (answer : Option Byte) :
    ∃ t, memRead Config.kbsr (s.supply (supplyAnswer answer)) = (if answer = none then 0x0000 else 0x8000, t) ∧
      t.inQueue = [] ∧ ∀ b, answer = some b → t.cell Config.kbdr = 0#8 ++ b := by
  have hq := supplyAnswer_arrive h answer
  refine ⟨pollKeyboard (s.supply (supplyAnswer answer)), ?_⟩
  cases answer with
  | none => exact ⟨memRead_kbsr_empty hq, by simpa [pollKeyboard_empty hq] using hq, by simp⟩
  | some b => exact ⟨memRead_kbsr_ready hq, by simp [pollKeyboard_ready hq],
      by simp [pollKeyboard_ready hq, zext8_eq_append]⟩

/-- Settles O18: the turns of the environment case by case, and for each moment the environment that gives its answer. -/
theorem inputMayArriveAtAnyMoment : Obligations.InputMayArriveAtAnyMoment := by
  unfold Obligations.InputMayArriveAtAnyMoment
  refine ⟨?_, fun _ _ _ => arrive_of_batch, fun _ => arrive_of_no_supply, ?_⟩
  · intro s e
    exact ⟨rfl, rfl, rfl, fun _ => rfl, rfl, rfl, fun _ => rfl, ⟨rfl, rfl, rfl⟩, rfl⟩
  · intro ans
    exact ⟨fun k => supplyAnswer (ans k), fun k s h => memRead_kbsr_supplyAnswer h (ans k)⟩

end Sys2Proof.Machine
end

section
/-! SUPPORT. Proofs of the statements of 10_state.md: what an instruction may write (R22 to R24, R27, R31, R32, R38),
that only BR reads the flags (R33), the run state (R39), reset (R43) and the invariants of a legal state (R45). -/

namespace Sys2Proof.Machine

/-! ### The fetch -/

@[simp] theorem fetch_pc (s : State) : (fetch s).2.pc = s.pc + 1 := rfl
@[simp] theorem fetch_run (s : State) : (fetch s).2.run = s.run := by simp [fetch]
@[simp] theorem fetch_abortCause (s : State) : (fetch s).2.abortCause = s.abortCause := by simp [fetch]
@[simp] theorem fetch_params (s : State) : (fetch s).2.params = s.params := by simp [fetch]

/-- A fetch writes no cell but KBSR and KBDR (10_state.md R38). -/
theorem fetch_cell_other (s : State) {a : Word} (h₁ : a ≠ Config.kbsr) (h₂ : a ≠ Config.kbdr) :
    (fetch s).2.cell a = s.cell a := by
  rw [fetch, setPc_cell, memRead_cell_other _ _ h₁ h₂]

/-! ### Legal states -/

/-- Every operation of an instruction keeps memory's canonical form. -/
theorem memWf_kept : Kept fun s => Memory.wf s.mem where
  setX _ _ _ h := h
  setPc _ _ h := h
  setCC _ _ h := h
  memRead a _ h := memRead_wf a h
  memWrite a v _ h := setCell_wf h a v
  outWrite _ _ h := h
  inRead _ _ _ hread h := by
    obtain ⟨rest, later, -, rfl⟩ := inRead_cases hread
    exact h
  inReadWaits _ _ hwait h := by
    obtain ⟨rfl, -⟩ := inRead_waits hwait
    exact h
  raiseFatal _ _ h := h
  haltEngine _ h := h

theorem fetch_legal {s : State} (hs : s.Legal) : (fetch s).2.Legal :=
  ⟨memWf_kept.setPc _ _ (memWf_kept.memRead _ _ hs.mem_wf), by simpa using hs.aborted_iff⟩

/-- An instruction run from a legal RUNNING state leaves a legal state. (From an ABORTED one HALT would not: it leaves
the cause.) -/
theorem exec_legal {i : Instr} {s t : State} (hrun : s.run = .running) (hs : s.Legal) (h : exec i s = .next t) :
    t.Legal := by
  have hcause : s.abortCause = none := by simpa [hrun] using hs.aborted_iff
  refine ⟨memWf_kept.exec h hs.mem_wf, ?_⟩
  obtain ⟨hr, hc⟩ | ⟨-, rfl⟩ | ⟨-, rfl⟩ | ⟨vect, -, -, -, rfl⟩ := exec_run_cases h
  · rw [hr, hc]
    exact hs.aborted_iff
  · simp [hcause]
  · simp
  · simp

/-- Settles O55: a step is a fetch and an instruction run from RUNNING; the environment touches neither memory nor
`RUN`. -/
theorem stepKeepsLegalStates : Obligations.StepKeepsLegalStates := by
  unfold Obligations.StepKeepsLegalStates
  refine ⟨fun s t hs h => ?_, fun s e hs => ⟨hs.mem_wf, hs.aborted_iff⟩⟩
  obtain ⟨hrun, hexec⟩ := step_cases h
  exact exec_legal (by rwa [fetch_run]) (fetch_legal hs) hexec

/-! ### HALTED -/

@[simp] theorem linkR7_out (s : State) : (linkR7 s).out = s.out := rfl
@[simp] theorem haltEngine_out (s : State) : (haltEngine s).out = s.out := rfl

theorem decodeJmp_wellFormed (base : Reg) : (decodeJmp base).WellFormed := by
  unfold decodeJmp
  split
  · rfl
  · simpa [Instr.WellFormed, Instr.wf]

theorem trap_wellFormed_iff {vect : BitVec 8} : (Instr.trap vect).WellFormed ↔ vect ∉ definedVectors := by
  simp [Instr.WellFormed, Instr.wf]

theorem decodeTrap_wellFormed (vect : BitVec 8) : (decodeTrap vect).WellFormed := by
  unfold decodeTrap
  split_ifs with h20 h21 h22 h23 h24 h25
  case neg =>
    rw [trap_wellFormed_iff]
    simp only [definedVectors, List.mem_cons, List.not_mem_nil, or_false, not_or]
    exact ⟨h20, h21, h22, h23, h24, h25⟩
  all_goals rfl

/-- What the decoder gives is in its finest spelling: never JMP with BaseR 7, never TRAP with a service's vector. -/
theorem decode_wellFormed (w : Word) : (decode w).WellFormed := by
  unfold decode
  split
  case h_13 => exact decodeJmp_wellFormed _
  case h_16 => exact decodeTrap_wellFormed _
  case h_2 | h_5 | h_6 => split <;> rfl
  all_goals rfl

/-- Settles O9: of the ways `RUN` can change only HALT's leads to HALTED, and the decoder spells it `halt`. -/
theorem haltedOnlyByHalt : Obligations.HaltedOnlyByHalt := by
  unfold Obligations.HaltedOnlyByHalt
  intro s t h hhalted
  obtain ⟨hrun, hexec⟩ := step_cases h
  obtain ⟨hr, -⟩ | ⟨hi | hi, rfl⟩ | ⟨-, rfl⟩ | ⟨vect, -, -, -, rfl⟩ := exec_run_cases hexec
  · simp [hr, hrun] at hhalted
  · exact ⟨hi, by simp, by simp, (fetch s).2.out, by simp⟩
  · have hwf := decode_wellFormed (fetch s).1
    rw [hi] at hwf
    exact absurd hwf (by decide)
  · cases hhalted
  · cases hhalted

/-- Settles O7: `step` asks `stopReason` first, which names a stop in both states. -/
theorem noStepFromHaltedOrAborted : Obligations.NoStepFromHaltedOrAborted := by
  unfold Obligations.NoStepFromHaltedOrAborted
  intro s
  exact ⟨fun h => by simp [step, stopReason, h], fun h => by simp [step, stopReason, h],
    fun hrun _ h => hrun (step_running h)⟩

/-! ### What an instruction may write -/

/-- From `s` to `t` nothing was written that instruction `i` is not listed to write: registers (10_state.md R22 to R24),
`pc` (R27), `COND` (R32) and cells (R38); KBSR and KBDR are written by any read. -/
structure OnlyListedWritten (i : Instr) (s t : State) : Prop where
  regs : ∀ r, r ∉ writtenRegs i → t.x r = s.x r
  pc : isJump i = false → t.pc = s.pc
  cond : flagSource i = none → t.cond = s.cond
  cells : isStore i = false → ∀ a, a ≠ Config.kbsr → a ≠ Config.kbdr → t.cell a = s.cell a

/-- TRAP sets the flags, R0's, by the vectors of GETC and IN only (10_state.md R31). -/
theorem flagSource_trap_eq_some {vect : BitVec 8} {r : Reg} :
    flagSource (.trap vect) = some r ↔ (vect = 0x20 ∨ vect = 0x23) ∧ r = 0 := by
  rw [flagSource]
  split_ifs with hv
  · exact ⟨fun h => ⟨hv, (Option.some.inj h).symm⟩, fun ⟨_, h⟩ => by rw [h]⟩
  · exact ⟨nofun, fun ⟨h, _⟩ => absurd h hv⟩

/-- The register whose flag an instruction sets is one it writes. -/
theorem flagSource_mem_writtenRegs {i : Instr} {r : Reg} (h : flagSource i = some r) : r ∈ writtenRegs i := by
  cases i with
  | trap vect =>
    obtain ⟨hv, rfl⟩ := flagSource_trap_eq_some.mp h
    rw [writtenRegs, if_pos hv]
    exact .head _
  | _ => simp_all [flagSource, writtenRegs]

/-- Every TRAP may write the link register (10_state.md R23). -/
theorem seven_mem_writtenRegs_trap (vect : BitVec 8) : 7 ∈ writtenRegs (.trap vect) := by
  rw [writtenRegs]
  split <;> decide

namespace OnlyListedWritten

variable {i : Instr} {s t u : State}

theorem refl (i : Instr) (s : State) : OnlyListedWritten i s s :=
  ⟨fun _ _ => rfl, fun _ => rfl, fun _ => rfl, fun _ _ _ _ => rfl⟩

theorem setX {r : Reg} (hr : r ∈ writtenRegs i) (v : Word) (h : OnlyListedWritten i s t) :
    OnlyListedWritten i s (t.setX r v) where
  regs q hq := by rw [setX_x_other _ _ (by rintro rfl; exact hq hr), h.regs q hq]
  pc := h.pc
  cond := h.cond
  cells := h.cells

theorem setPc (hj : isJump i = true) (target : Word) (h : OnlyListedWritten i s t) :
    OnlyListedWritten i s (t.setPc target) :=
  ⟨h.regs, by simp [hj], h.cond, h.cells⟩

theorem setCC {r : Reg} (hf : flagSource i = some r) (h : OnlyListedWritten i s t) :
    OnlyListedWritten i s (setCC r t) :=
  ⟨h.regs, h.pc, by simp [hf], h.cells⟩

theorem memWrite (hs : isStore i = true) (a v : Word) (h : OnlyListedWritten i s t) :
    OnlyListedWritten i s (memWrite a v t) :=
  ⟨h.regs, h.pc, h.cond, by simp [hs]⟩

theorem memRead (a : Word) (h : OnlyListedWritten i s t) : OnlyListedWritten i s (memRead a t).2 where
  regs r hr := by rw [memRead_x, h.regs r hr]
  pc hj := by rw [memRead_pc, h.pc hj]
  cond hf := by rw [memRead_cond, h.cond hf]
  cells hs c h₁ h₂ := by rw [memRead_cell_other _ _ h₁ h₂, h.cells hs c h₁ h₂]

theorem outWrite (bs : List Byte) (h : OnlyListedWritten i s t) : OnlyListedWritten i s (outWrite bs t) :=
  ⟨h.regs, h.pc, h.cond, h.cells⟩

theorem inRead {b : Byte} (hread : inRead t = .ok (b, u)) (h : OnlyListedWritten i s t) :
    OnlyListedWritten i s u := by
  obtain ⟨rest, later, -, rfl⟩ := inRead_cases hread
  exact ⟨h.regs, h.pc, h.cond, h.cells⟩

theorem raiseFatal (c : FatalCause) (h : OnlyListedWritten i s t) : OnlyListedWritten i s (raiseFatal c t) :=
  ⟨h.regs, h.pc, h.cond, h.cells⟩

theorem haltEngine (h : OnlyListedWritten i s t) : OnlyListedWritten i s (haltEngine t) :=
  ⟨h.regs, h.pc, h.cond, h.cells⟩

theorem writeResult {dr : Reg} (hf : flagSource i = some dr) (v : Word) (h : OnlyListedWritten i s t) :
    OnlyListedWritten i s (writeResult dr v t) :=
  (h.setX (flagSource_mem_writtenRegs hf) v).setCC hf

theorem loadInto {dr : Reg} (hf : flagSource i = some dr) (ea : Word) (h : OnlyListedWritten i s t) :
    OnlyListedWritten i s (loadInto dr ea t) :=
  (h.memRead ea).writeResult hf _

theorem linkR7 (h7 : 7 ∈ writtenRegs i) (h : OnlyListedWritten i s t) : OnlyListedWritten i s (linkR7 t) :=
  h.setX h7 _

theorem serviceGetc (hf : flagSource i = some 0) (hnext : serviceGetc t = .next u) (h : OnlyListedWritten i s t) :
    OnlyListedWritten i s u := by
  obtain ⟨b, t', hread, rfl⟩ := serviceGetc_next hnext
  exact (h.inRead hread).writeResult hf _

theorem serviceIn (hf : flagSource i = some 0) (hnext : serviceIn t = .next u) (h : OnlyListedWritten i s t) :
    OnlyListedWritten i s u := by
  obtain ⟨b, t', hread, rfl⟩ := serviceIn_next hnext
  exact (((h.outWrite _).inRead hread).outWrite _).writeResult hf _

theorem serviceString {chars : Word → List Byte} (hnext : serviceString chars t = .next u)
    (h : OnlyListedWritten i s t) : OnlyListedWritten i s u := by
  simpa [serviceString_next hnext, loopState] using
    putString_keeps (fun a _ hp => hp.memRead a) (fun bs _ hp => hp.outWrite bs) (chars := chars)
      (fuel := stringFuel t) (a := t.x 0) h

theorem serviceHalt (hnext : serviceHalt t = .next u) (h : OnlyListedWritten i s t) : OnlyListedWritten i s u := by
  cases hnext
  exact (h.outWrite _).haltEngine

theorem serviceUnknown (hnext : serviceUnknown t = .next u) (h : OnlyListedWritten i s t) :
    OnlyListedWritten i s u := by
  obtain ⟨-, rfl⟩ | ⟨-, rfl⟩ := serviceUnknown_next hnext
  · exact h.raiseFatal _
  · exact h

end OnlyListedWritten

/-- An instruction writes only what it is listed to write. -/
theorem exec_onlyListedWritten {i : Instr} {s t : State} (h : exec i s = .next t) : OnlyListedWritten i s t := by
  have h0 := OnlyListedWritten.refl i s
  cases i with
  | addReg dr sr1 sr2 => cases h; exact h0.writeResult rfl _
  | addImm dr sr1 imm => cases h; exact h0.writeResult rfl _
  | andReg dr sr1 sr2 => cases h; exact h0.writeResult rfl _
  | andImm dr sr1 imm => cases h; exact h0.writeResult rfl _
  | not dr sr => cases h; exact h0.writeResult rfl _
  | lea dr off => cases h; exact h0.writeResult rfl _
  | ld dr off => cases h; exact h0.loadInto rfl _
  | ldr dr base off => cases h; exact h0.loadInto rfl _
  | ldi dr off => cases h; exact (h0.memRead _).loadInto rfl _
  | st sr off => cases h; exact h0.memWrite rfl _ _
  | str sr base off => cases h; exact h0.memWrite rfl _ _
  | sti sr off => cases h; exact (h0.memRead _).memWrite rfl _ _
  | br nzp off =>
    cases h
    split
    · exact h0.setPc rfl _
    · exact h0
  | jmp base => cases h; exact h0.setPc rfl _
  | ret => cases h; exact h0.setPc rfl _
  | jsr off => cases h; exact (h0.linkR7 (.head _)).setPc rfl _
  | jsrr base => cases h; exact (h0.linkR7 (.head _)).setPc rfl _
  | rti => cases h; exact h0.raiseFatal _
  | res => cases h; exact h0.raiseFatal _
  | getc => exact (h0.linkR7 (by decide)).serviceGetc rfl h
  | out => cases h; exact (h0.linkR7 (by decide)).outWrite _
  | puts => exact (h0.linkR7 (by decide)).serviceString h
  | inChar => exact (h0.linkR7 (by decide)).serviceIn rfl h
  | putsp => exact (h0.linkR7 (by decide)).serviceString h
  | halt => exact (h0.linkR7 (by decide)).serviceHalt h
  | trap vect =>
    have hl := h0.linkR7 (seven_mem_writtenRegs_trap vect)
    change trapService vect (linkR7 s) = .next t at h
    unfold trapService at h
    split_ifs at h with h20 h21 h22 h23
    · exact hl.serviceGetc (by simp [flagSource_trap_eq_some, h20]) h
    · cases h
      exact hl.outWrite _
    · exact hl.serviceString h
    · exact hl.serviceIn (by simp [flagSource_trap_eq_some, h23]) h
    · exact hl.serviceString h
    · exact hl.serviceHalt h
    · exact hl.serviceUnknown h

/-- Settles O14: the fetch and every instruction but the stores leave all cells but KBSR and KBDR. -/
theorem onlyStoresWritePlainCells : Obligations.OnlyStoresWritePlainCells := by
  unfold Obligations.OnlyStoresWritePlainCells
  intro s t h a h₁ h₂ hchanged
  by_contra hstore
  have hcell := (exec_onlyListedWritten (step_cases h).2).cells (by simpa using hstore) a h₁ h₂
  exact hchanged (hcell.trans (fetch_cell_other s h₁ h₂))

/-- Settles O22: only listed registers are written. -/
theorem registersWrittenAreTheListedOnes : Obligations.RegistersWrittenAreTheListedOnes := by
  unfold Obligations.RegistersWrittenAreTheListedOnes
  intro i s t h
  exact (exec_onlyListedWritten h).regs

/-- Settles O23: only a control transfer is listed to write `pc`. -/
theorem onlyControlTransfersMoveThePc : Obligations.OnlyControlTransfersMoveThePc := by
  unfold Obligations.OnlyControlTransfersMoveThePc
  intro i s t hjump h
  exact (exec_onlyListedWritten h).pc hjump

/-! ### Flags -/

/-- `condOf` is the flag of a value as 10_state.md R30 says it. -/
theorem isFlagOf_condOf (v : Word) : IsFlagOf v (condOf v) :=
  ⟨(condOf_zero_iff v).mpr, fun _ => (condOf_negative_iff v).mpr,
    fun h0 hb => (condOf_positive_iff v).mpr ⟨h0, hb⟩⟩

/-- Settles O19: `condOf` is R30's rule, and `setCC` updates `COND` alone. -/
theorem flagRule : Obligations.FlagRule := by
  unfold Obligations.FlagRule
  intro r s
  exact ⟨isFlagOf_condOf _, fun _ => rfl, rfl, fun _ => rfl, ⟨rfl, rfl, rfl, rfl⟩, rfl, rfl, rfl⟩

theorem serviceGetc_ends_with_writeResult {s t : State} (h : serviceGetc s = .next t) :
    ∃ v u, t = writeResult 0 v u := by
  obtain ⟨b, u, -, rfl⟩ := serviceGetc_next h
  exact ⟨_, _, rfl⟩

theorem serviceIn_ends_with_writeResult {s t : State} (h : serviceIn s = .next t) :
    ∃ v u, t = writeResult 0 v u := by
  obtain ⟨b, u, -, rfl⟩ := serviceIn_next h
  exact ⟨_, _, rfl⟩

/-- The last thing an instruction that sets the flags does is to write its result and the result's flag. -/
theorem exec_ends_with_writeResult {i : Instr} {s t : State} {r : Reg} (hf : flagSource i = some r)
    (h : exec i s = .next t) : ∃ v u, t = writeResult r v u := by
  cases i with
  | getc => cases hf; exact serviceGetc_ends_with_writeResult h
  | inChar => cases hf; exact serviceIn_ends_with_writeResult h
  | trap vect =>
    obtain ⟨rfl | rfl, rfl⟩ := flagSource_trap_eq_some.mp hf
    · exact serviceGetc_ends_with_writeResult h
    · exact serviceIn_ends_with_writeResult h
  | addReg | addImm | andReg | andImm | not | lea | ld | ldr | ldi => cases hf; cases h; exact ⟨_, _, rfl⟩
  | _ => cases hf

/-- After an instruction that sets the flags `COND` is the flag of what its destination holds. -/
theorem exec_cond_of_flagSource {i : Instr} {s t : State} {r : Reg} (hf : flagSource i = some r)
    (h : exec i s = .next t) : t.cond = condOf (t.x r) := by
  obtain ⟨v, u, rfl⟩ := exec_ends_with_writeResult hf h
  simp

/-- Settles O20: an instruction that sets the flags ends with `writeResult`; no other is listed to write `COND`. -/
theorem flagsAreWrittenByTheListedInstructionsOnly : Obligations.FlagsAreWrittenByTheListedInstructionsOnly := by
  unfold Obligations.FlagsAreWrittenByTheListedInstructionsOnly
  intro i s t h
  refine ⟨fun r hf => ?_, (exec_onlyListedWritten h).cond⟩
  rw [exec_cond_of_flagSource hf h]
  exact isFlagOf_condOf _

/-! ### Only BR reads the flags -/

/-- The state with the flag `c` in the place of its own. -/
def State.withCond (s : State) (c : Cond) : State := { s with cond := c }

section
variable (s : State) (c : Cond)

theorem arrive_withCond : (s.withCond c).arrive = s.arrive.withCond c := by
  unfold State.arrive State.withCond
  dsimp only
  split <;> rfl

theorem pollKeyboard_withCond : pollKeyboard (s.withCond c) = (pollKeyboard s).withCond c := by
  obtain ⟨hq, hp⟩ | ⟨b, rest, hq, hp⟩ := pollKeyboard_cases s
  · rw [hp, pollKeyboard_empty (by rw [arrive_withCond]; exact hq), arrive_withCond]
    rfl
  · rw [hp, pollKeyboard_ready (by rw [arrive_withCond]; exact hq), arrive_withCond]
    rfl

theorem memRead_withCond (a : Word) : memRead a (s.withCond c) = ((memRead a s).1, (memRead a s).2.withCond c) := by
  by_cases h : a = Config.kbsr
  · rw [h, memRead_kbsr, memRead_kbsr, pollKeyboard_withCond]
    rfl
  · rw [memRead_plain h, memRead_plain h]
    rfl

theorem indirect_withCond (off : BitVec 9) :
    indirect off (s.withCond c) = ((indirect off s).1, (indirect off s).2.withCond c) :=
  memRead_withCond s c _

/-- The flag before a result is written is lost. -/
theorem writeResult_withCond (dr : Reg) (v : Word) : writeResult dr v (s.withCond c) = writeResult dr v s := rfl

theorem loadInto_withCond (dr : Reg) (ea : Word) : loadInto dr ea (s.withCond c) = loadInto dr ea s := by
  rw [loadInto, memRead_withCond, writeResult_withCond, loadInto]

theorem inRead_withCond :
    inRead (s.withCond c) = ((inRead s).map fun p => (p.1, p.2.withCond c)).mapError (·.withCond c) := by
  have hsame : takeByte (s.withCond c).inQueue (s.withCond c).arrivals (s.withCond c).refill =
    takeByte s.inQueue s.arrivals s.refill := rfl
  rw [inRead, hsame, inRead]
  cases takeByte s.inQueue s.arrivals s.refill <;> rfl

theorem putString_withCond (chars : Word → List Byte) (fuel : Nat) (a : Word) :
    putString chars fuel a (s.withCond c) =
      ((putString chars fuel a s).map (·.withCond c)).mapError fun p => (p.1, p.2.withCond c) := by
  induction fuel generalizing a s with
  | zero => rfl
  | succ fuel ih =>
    by_cases hz : (memRead a s).1 = 0x0000
    · rw [putString_ends_here hz, putString_ends_here (by rwa [memRead_withCond]), memRead_withCond]
      rfl
    · rw [putString_goes_on hz, putString_goes_on (by rwa [memRead_withCond]), memRead_withCond]
      exact ih (outWrite (chars (memRead a s).1) (memRead a s).2) (a + 1)

theorem serviceGetc_alike : AlikeButCond (serviceGetc s) (serviceGetc (s.withCond c)) := by
  unfold serviceGetc
  rw [inRead_withCond]
  cases inRead s <;> exact rfl

theorem serviceIn_alike : AlikeButCond (serviceIn s) (serviceIn (s.withCond c)) := by
  have hread : inRead (outWrite (s.withCond c).params.inPrompt (s.withCond c)) = _ :=
    inRead_withCond (outWrite s.params.inPrompt s) c
  unfold serviceIn
  rw [hread]
  cases inRead (outWrite s.params.inPrompt s) <;> exact rfl

theorem serviceString_alike (chars : Word → List Byte) :
    AlikeButCond (serviceString chars s) (serviceString chars (s.withCond c)) := by
  have hloop : putString chars (stringFuel (s.withCond c)) ((s.withCond c).x 0) (s.withCond c) = _ :=
    putString_withCond s c chars (stringFuel s) (s.x 0)
  unfold serviceString
  rw [hloop]
  cases putString chars (stringFuel s) (s.x 0) s with
  | error p => exact ⟨rfl, rfl⟩
  | ok t => exact rfl

theorem serviceUnknown_alike : AlikeButCond (serviceUnknown s) (serviceUnknown (s.withCond c)) := by
  have hparams : (s.withCond c).params = s.params := rfl
  unfold serviceUnknown
  rw [hparams]
  cases s.params.unknownTrapPolicy <;> exact rfl

theorem trapService_alike (vect : BitVec 8) : AlikeButCond (trapService vect s) (trapService vect (s.withCond c)) := by
  unfold trapService
  split_ifs
  · exact serviceGetc_alike s c
  · exact rfl
  · exact serviceString_alike s c _
  · exact serviceIn_alike s c
  · exact serviceString_alike s c _
  · exact rfl
  · exact serviceUnknown_alike s c

/-- Another flag in the state before an instruction changes nothing but the flag after it. -/
theorem exec_alike {i : Instr} (hbr : ∀ nzp off, i ≠ .br nzp off) :
    AlikeButCond (exec i s) (exec i (s.withCond c)) := by
  cases i with
  | br nzp off => exact absurd rfl (hbr nzp off)
  | addReg | addImm | andReg | andImm | not | lea => exact rfl
  | ld | ldr => simp only [exec, execLd, execLdr, loadInto_withCond]; exact rfl
  | ldi => simp only [exec, execLdi, indirect_withCond, loadInto_withCond]; exact rfl
  | st | str => exact rfl
  | sti => simp only [exec, execSti, indirect_withCond]; exact rfl
  | jmp | ret | jsr | jsrr => exact rfl
  | rti | res => exact rfl
  | out | halt => exact rfl
  | getc => exact serviceGetc_alike (linkR7 s) c
  | inChar => exact serviceIn_alike (linkR7 s) c
  | puts => exact serviceString_alike (linkR7 s) c _
  | putsp => exact serviceString_alike (linkR7 s) c _
  | trap vect => exact trapService_alike (linkR7 s) c vect

end

/-- Settles O21: the results are alike, so the destination holds the same value, and the flag written is its flag. -/
theorem onlyBranchesReadTheFlags : Obligations.OnlyBranchesReadTheFlags := by
  unfold Obligations.OnlyBranchesReadTheFlags
  intro i s c hbr
  have halike : AlikeButCond (exec i s) (exec i { s with cond := c }) := exec_alike s c hbr
  refine ⟨halike, fun t u ht hu hsource => ?_⟩
  obtain ⟨r, hr⟩ := Option.ne_none_iff_exists'.mp hsource
  rw [ht, hu] at halike
  have hregs : u.regs = t.regs := by rw [halike]
  rw [exec_cond_of_flagSource hr ht, exec_cond_of_flagSource hr hu, x_congr hregs]

/-! ### Reset -/

/-- Settles O53: the fields of the fixed reset state; a cell of the empty memory is unlisted. -/
theorem resetValues : Obligations.ResetValues := by
  unfold Obligations.ResetValues
  exact ⟨by decide, rfl, rfl, fun _ => rfl, rfl, rfl, rfl, rfl, rfl, rfl, rfl, rfl⟩

/-- Settles O54: the empty memory is canonical, and reset is RUNNING with no cause. -/
theorem resetIsLegal : Obligations.ResetIsLegal := by
  unfold Obligations.ResetIsLegal
  exact ⟨by decide, by decide⟩

end Sys2Proof.Machine
end

section
/-! SUPPORT. Proofs of the statements of 20_memory.md: the two operations of the address space with the keyboard
intercept (R52 to R58), instructions as stored words (R55, R69), and the image loads (R70 to R73). -/

namespace Sys2Proof.Machine

/-! ### The keyboard intercept -/

/-- A cell write and a turn of the environment do not touch each other's fields. -/
theorem arrive_memWrite (a v : Word) (s : State) : (memWrite a v s).arrive = memWrite a v s.arrive := by
  obtain ⟨ha, hr, h⟩ | ⟨batch, later, h, hbatch⟩ := arrive_cases s
  · rw [h]
    exact arrive_of_no_supply ha hr
  · rw [h]
    exact arrive_of_batch hbatch

/-- What is in `IN` when a poll looks does not depend on memory. -/
@[simp] theorem arrive_memWrite_inQueue (a v : Word) (s : State) :
    (memWrite a v s).arrive.inQueue = s.arrive.inQueue := by
  rw [arrive_memWrite, memWrite_inQueue]

/-- A poll that finds no byte writes KBSR alone (20_memory.md R53). -/
theorem pollKeyboard_empty_cell {s : State} (h : s.arrive.inQueue = []) (c : Word) :
    (pollKeyboard s).cell c = if Config.kbsr = c then 0x0000 else s.cell c := by
  rw [pollKeyboard_empty h, setCell_cell, logPorts_cell, cell_congr (arrive_mem s)]

/-- A poll that finds a byte leaves it, zero-extended, in KBDR (20_memory.md R53). -/
theorem pollKeyboard_ready_kbdr {s : State} {b : Byte} {rest : List Byte} (h : s.arrive.inQueue = b :: rest) :
    (pollKeyboard s).cell Config.kbdr = 0#8 ++ b := by
  rw [pollKeyboard_ready h, setCell_cell_same, zext8_eq_append]

/-- A poll writes no register. -/
theorem pollKeyboard_sameRegs (s : State) : SameRegs s (pollKeyboard s) := x_congr (pollKeyboard_regs s)

/-- A poll leaves `RUN`, `ABORT_CAUSE` and the parameters. -/
theorem pollKeyboard_sameControl (s : State) : SameControl s (pollKeyboard s) :=
  ⟨pollKeyboard_run s, pollKeyboard_abortCause s, pollKeyboard_params s⟩

/-- Settles O11: a read is plain or a poll, and a poll is one of its two cases. -/
theorem memReadInterceptsKeyboardStatusOnly : Obligations.MemReadInterceptsKeyboardStatusOnly := by
  unfold Obligations.MemReadInterceptsKeyboardStatusOnly
  refine ⟨fun s a ha => memRead_plain ha s, fun s hq => ?_, fun s b rest hq => ?_⟩
  · have hp := pollKeyboard_empty hq
    have hcell := pollKeyboard_empty_cell hq
    exact ⟨pollKeyboard s, memRead_kbsr_empty hq, hcell _, fun c hc => (hcell c).trans (if_neg hc.symm),
      pollKeyboard_sameRegs s, pollKeyboard_pc s, pollKeyboard_cond s, pollKeyboard_sameControl s,
      by simp [hp, hq], by simp [hp], pollKeyboard_refill s, by simp [hp]⟩
  · have hp := pollKeyboard_ready hq
    have hread := memRead_kbsr_ready hq
    have hkbsr : (pollKeyboard s).cell Config.kbsr = 0x8000 := by
      simpa [hread] using (memRead_value Config.kbsr s).symm
    exact ⟨pollKeyboard s, hread, hkbsr, pollKeyboard_ready_kbdr hq, fun _ => pollKeyboard_cell_other s,
      pollKeyboard_sameRegs s, pollKeyboard_pc s, pollKeyboard_cond s, pollKeyboard_sameControl s,
      by simp [hp], by simp [hp], pollKeyboard_refill s, by simp [hp]⟩

/-- The answer of a read of KBSR is decided by what is in `IN`, not by what the cell held (20_memory.md R53, R57). -/
theorem memRead_kbsr_congr {s t : State} (h : t.arrive.inQueue = s.arrive.inQueue) :
    (memRead Config.kbsr t).1 = (memRead Config.kbsr s).1 := by
  cases hq : s.arrive.inQueue with
  | nil => rw [memRead_kbsr_empty hq, memRead_kbsr_empty (h.trans hq)]
  | cons b rest => rw [memRead_kbsr_ready hq, memRead_kbsr_ready (h.trans hq)]

/-- A read that finds no key leaves KBDR (20_memory.md R53). -/
theorem memRead_kbdr_of_no_key {a : Word} {s : State} (h : a = Config.kbsr → s.arrive.inQueue = []) :
    (memRead a s).2.cell Config.kbdr = s.cell Config.kbdr := by
  obtain hs | ⟨ha, hs⟩ := memRead_state a s
  · rw [hs]
  · rw [hs, pollKeyboard_empty_cell (h ha), if_neg (by decide)]

/-- Reads that find no key leave KBDR. -/
theorem readAll_kbdr {as : List Word} {s : State} (h : FindsNoKey as s) :
    (readAll as s).cell Config.kbdr = s.cell Config.kbdr := by
  induction as generalizing s with
  | nil => rfl
  | cons a as ih =>
    obtain ⟨hhead, htail⟩ := h
    exact (ih htail).trans (memRead_kbdr_of_no_key hhead)

/-- A read of KBDR is plain (20_memory.md R54). -/
theorem memRead_kbdr (s : State) : memRead Config.kbdr s = (s.cell Config.kbdr, s) := memRead_plain (by decide) s

/-- Settles O13: a poll answers by `IN` alone; only a poll that finds a byte writes KBDR. -/
theorem storedKeyboardValues : Obligations.StoredKeyboardValues := by
  unfold Obligations.StoredKeyboardValues
  refine ⟨fun s v => ⟨memRead_kbsr_congr (arrive_memWrite_inQueue _ v s), memRead_kbsr_value s⟩,
    fun s v as hnokey => ?_, fun s v b rest hq => ?_⟩
  · have hkbdr : (readAll as (memWrite Config.kbdr v s)).cell Config.kbdr = v :=
      (readAll_kbdr hnokey).trans (setCell_cell_same s _ v)
    exact (memRead_kbdr _).trans (congrArg (·, _) hkbdr)
  · have hready := memRead_kbsr_ready ((arrive_memWrite_inQueue Config.kbdr v s).trans hq)
    change (memRead Config.kbdr (memRead Config.kbsr (memWrite Config.kbdr v s)).2).1 = _
    rw [hready, memRead_kbdr]
    exact pollKeyboard_ready_kbdr ((arrive_memWrite_inQueue _ v s).trans hq)

/-! ### `MemWrite` -/

/-- Settles O12: `MemWrite` is a cell write, and a cell write is the only field it changes. -/
theorem memWriteIsAPlainStore : Obligations.MemWriteIsAPlainStore := by
  unfold Obligations.MemWriteIsAPlainStore
  intro s a v
  exact ⟨setCell_cell_same s a v, fun c hc => setCell_cell_other s v hc.symm, fun _ => rfl, rfl, rfl,
    ⟨rfl, rfl, rfl, rfl⟩, rfl, rfl, rfl⟩

/-! ### Instructions are stored words -/

/-- Away from KBSR a step runs the word the cell at `pc` holds, and the fetch changes `pc` alone (20_memory.md R55). -/
theorem step_of_plain_fetch {s : State} (hrun : s.run = .running) (hpc : s.pc ≠ Config.kbsr) :
    step s = exec (decode (s.cell s.pc)) (s.setPc (s.pc + 1)) := by
  rw [step_of_running hrun, fetch, memRead_plain hpc]

/-- After a word is written to the cell `pc` names, the step runs that word (20_memory.md R69). -/
theorem step_setCell_pc {s : State} (hrun : s.run = .running) (hpc : s.pc ≠ Config.kbsr) (w : Word) :
    step (s.setCell s.pc w) = exec (decode w) ((s.setCell s.pc w).setPc (s.pc + 1)) := by
  have hstep := step_of_plain_fetch (s := s.setCell s.pc w) hrun hpc
  rwa [setCell_pc, setCell_cell_same] at hstep

/-- The table's word of 16 bits is the word itself. -/
theorem tableWord_toNat (w : Word) : tableWord 16 w.toNat = w := by
  rw [tableWord, Nat.mod_eq_of_lt w.isLt, BitVec.ofNat_toNat, BitVec.setWidth_eq]

/-- Settles O8: the fetch reads the cell just written. -/
theorem placedWordIsRun : Obligations.PlacedWordIsRun := by
  unfold Obligations.PlacedWordIsRun
  intro s w hrun hpc
  rw [State.withFetchWord, tableWord_toNat, step_setCell_pc hrun hpc]

/-- Settles O15: offset 0 names the cell at `pc`, where the next step fetches. -/
theorem storedInstructionIsFetched : Obligations.StoredInstructionIsFetched := by
  unfold Obligations.StoredInstructionIsFetched
  intro s sr hrun hpc
  have haddress : pcRelative (0 : BitVec 9) s = s.pc := by simp [pcRelative, sext]
  have hstore : exec (.st sr 0) s = .next (s.setCell s.pc (s.x sr)) := by
    rw [exec, execSt, haddress, memWrite]
  exact ⟨_, hstore, step_setCell_pc hrun hpc _⟩

/-! ### Instructions that always complete -/

/-- An unknown vector completes under either policy (44_trap.md R158). -/
theorem serviceUnknown_completes (s : State) : ∃ t, serviceUnknown s = .next t := by
  unfold serviceUnknown
  split <;> exact ⟨_, rfl⟩

/-- TRAP completes but for the vectors that read input or a string (60_exceptions.md R190). -/
theorem trapService_completes {vect : BitVec 8} (h : mayNotComplete (.trap vect) = false) (s : State) :
    ∃ t, trapService vect s = .next t := by
  simp only [mayNotComplete, decide_eq_false_iff_not, not_or] at h
  obtain ⟨h20, h22, h23, h24⟩ := h
  rw [trapService, if_neg h20, if_neg h22, if_neg h23, if_neg h24]
  split_ifs
  · exact ⟨_, rfl⟩
  · exact ⟨_, rfl⟩
  · exact serviceUnknown_completes s

/-- Settles O24: every arm of `exec` but the four gives a next state at once, TRAP by its vector. -/
theorem noInstructionFaultsButWaitsAndStrings : Obligations.NoInstructionFaultsButWaitsAndStrings := by
  unfold Obligations.NoInstructionFaultsButWaitsAndStrings
  intro i s h
  cases i with
  | trap vect => exact trapService_completes h (linkR7 s)
  | getc | inChar | puts | putsp => cases h
  | addReg | addImm | andReg | andImm | not | lea => exact ⟨_, rfl⟩
  | ld | ldr | ldi | st | str | sti => exact ⟨_, rfl⟩
  | br | jmp | ret | jsr | jsrr => exact ⟨_, rfl⟩
  | out | halt | rti | res => exact ⟨_, rfl⟩

/-! ### Image files -/

/-- The two bytes of a word, the high one first, make the word (20_memory.md R70). -/
theorem highByte_append_lowByte (w : Word) : w.extractLsb' 8 8 ++ w.extractLsb' 0 8 = w :=
  (BitVec.extractLsb'_append_extractLsb'_eq_extractLsb' (by decide)).trans BitVec.extractLsb'_eq_self

/-- The bytes of a list of words are read back as these words (20_memory.md R70). -/
theorem wordsOfBytes_flatMap (ws : List Word) :
    wordsOfBytes (ws.flatMap fun w => [w.extractLsb' 8 8, w.extractLsb' 0 8]) = some ws := by
  induction ws with
  | nil => rfl
  | cons w ws ih =>
    rw [List.flatMap_cons, List.cons_append, List.cons_append, List.nil_append, wordsOfBytes, ih]
    exact congrArg (fun v => some (v :: ws)) (highByte_append_lowByte w)

/-- An odd number of bytes is no list of words (20_memory.md R73). -/
theorem wordsOfBytes_odd {bytes : List Byte} (h : bytes.length % 2 = 1) : wordsOfBytes bytes = none := by
  induction bytes using wordsOfBytes.induct with
  | case1 => cases h
  | case2 => rfl
  | case3 hi lo rest hrest ih => rw [wordsOfBytes, hrest]
  | case4 hi lo rest ws hrest ih =>
    simp only [List.length_cons] at h
    cases hrest.symm.trans (ih (by omega))

theorem parseImage_tooShort {file : List Byte} (h : file.length < 2) : parseImage file = .error .tooShort := by
  rw [parseImage, if_pos h]

theorem parseImage_oddLength {file : List Byte} (h : 2 < file.length) (hodd : file.length % 2 = 1) :
    parseImage file = .error .oddLength := by
  rw [parseImage, if_neg (by omega), wordsOfBytes_odd hodd]

/-- The file of an image is that image, or is refused if its payload does not fit (20_memory.md R70, R73). -/
theorem parseImage_imageFile (origin : Word) (words : List Word) :
    parseImage (imageFile origin words) =
      if 65536 < origin.toNat + words.length then .error .pastEnd else .ok ⟨origin, words⟩ := by
  have hwords : wordsOfBytes (imageFile origin words) = some (origin :: words) := wordsOfBytes_flatMap _
  have hlength : ¬ (imageFile origin words).length < 2 := by
    rw [imageFile, List.flatMap_cons, List.length_append, List.length_cons, List.length_singleton]
    omega
  rw [parseImage, if_neg hlength, hwords]
  rfl

theorem parseImage_fits {origin : Word} {words : List Word} (h : origin.toNat + words.length ≤ 65536) :
    parseImage (imageFile origin words) = .ok ⟨origin, words⟩ := by
  rw [parseImage_imageFile, if_neg (by omega)]

theorem parseImage_pastEnd {origin : Word} {words : List Word} (h : 65536 < origin.toNat + words.length) :
    parseImage (imageFile origin words) = .error .pastEnd := by
  rw [parseImage_imageFile, if_pos h]

/-- An ill-formed file is refused, for one of the three reasons (20_memory.md R73). -/
theorem parseImage_illFormed {file : List Byte} (h : IllFormedImage file) : ∃ why, parseImage file = .error why := by
  by_cases hshort : file.length < 2
  · exact ⟨_, parseImage_tooShort hshort⟩
  obtain hlength | hodd | ⟨origin, words, hpast, rfl⟩ := h
  · exact absurd hlength hshort
  · exact ⟨_, parseImage_oddLength (by omega) hodd⟩
  · exact ⟨_, parseImage_pastEnd hpast⟩

/-! ### Loads and launches -/

/-- A load goes on with the files after one that is an image (20_memory.md R72). -/
theorem loadImages_cons_ok {file : List Byte} {img : Image} (h : parseImage file = .ok img) (files : List (List Byte))
    (m : Memory) : loadImages (file :: files) m = loadImages files (loadImage img m) := by
  rw [loadImages, h]

/-- A file that is no image refuses the load (20_memory.md R73). -/
theorem loadImages_cons_error {file : List Byte} {why : ImageError} (h : parseImage file = .error why)
    (files : List (List Byte)) (m : Memory) : loadImages (file :: files) m = .error why := by
  rw [loadImages, h]

/-- One file that is no image refuses the load, wherever it stands (20_memory.md R73). -/
theorem loadImages_error_of_mem {file : List Byte} {why : ImageError} (h : parseImage file = .error why)
    {files : List (List Byte)} (hmem : file ∈ files) (m : Memory) : ∃ why', loadImages files m = .error why' := by
  induction files generalizing m with
  | nil => cases hmem
  | cons head files ih =>
    cases hhead : parseImage head with
    | error why' => exact ⟨why', loadImages_cons_error hhead files m⟩
    | ok img =>
      obtain rfl | htail := List.mem_cons.mp hmem
      · cases h.symm.trans hhead
      · rw [loadImages_cons_ok hhead]
        exact ih htail _

/-- Images that all fit are loaded, and the load goes on from the memory they leave (20_memory.md R72). -/
theorem loadImages_append_fits {before : List (List Byte)}
    (h : ∀ file ∈ before, ∃ (origin : Word) (words : List Word),
      origin.toNat + words.length ≤ 65536 ∧ file = imageFile origin words) (m : Memory) :
    ∃ m', ∀ files, loadImages (before ++ files) m = loadImages files m' := by
  induction before generalizing m with
  | nil => exact ⟨m, fun _ => rfl⟩
  | cons file before ih =>
    obtain ⟨⟨origin, words, hfits, rfl⟩, hrest⟩ := List.forall_mem_cons.mp h
    obtain ⟨m', hm'⟩ := ih hrest (loadImage ⟨origin, words⟩ m)
    exact ⟨m', fun files => (loadImages_cons_ok (parseImage_fits hfits) _ m).trans (hm' files)⟩

/-- A launch is decided by its loads (70_reset_and_hazards.md R212). -/
theorem launch_congr {p : Params} {files files' : List (List Byte)}
    (h : loadImages files p.initMem = loadImages files' p.initMem) (inQueue : List Byte)
    (arrivals refill : List (List Byte)) :
    launch p files inQueue arrivals refill = launch p files' inQueue arrivals refill := by
  rw [launch, h, launch]

/-- A refused load refuses the launch (20_memory.md R73). -/
theorem launch_of_error {p : Params} {files : List (List Byte)} {why : ImageError}
    (h : loadImages files p.initMem = .error why) (inQueue : List Byte) (arrivals refill : List (List Byte)) :
    launch p files inQueue arrivals refill = .refused (.illFormedImage why) := by
  rw [launch, h]

/-- A launch whose images load is reset with the memory they leave (70_reset_and_hazards.md R212). -/
theorem launch_of_ok {p : Params} {files : List (List Byte)} {m : Memory} (h : loadImages files p.initMem = .ok m)
    (inQueue : List Byte) (arrivals refill : List (List Byte)) :
    launch p files inQueue arrivals refill = .next { State.resetWith p inQueue arrivals refill with mem := m } := by
  rw [launch, h]

/-- What every cell reads as after the load of an image: the image's word, or what it read as before. -/
theorem loadImage_read (origin : Word) (words : List Word) (m : Memory) (a : Nat) :
    Memory.read (loadImage ⟨origin, words⟩ m) a =
      if h : origin.toNat ≤ a ∧ a < origin.toNat + words.length then words[a - origin.toNat]'(by omega)
      else Memory.read m a :=
  loadWords_read words m origin.toNat a

/-- A cell an image covers has the image's word after its load (20_memory.md R71). -/
theorem loadImage_read_word {origin : Word} {words : List Word} (hfits : origin.toNat + words.length ≤ 65536)
    (m : Memory) {j : Nat} (hj : j < words.length) :
    Memory.read (loadImage ⟨origin, words⟩ m) (origin + BitVec.ofNat 16 j).toNat = words[j] := by
  have haddress : (origin + BitVec.ofNat 16 j).toNat = origin.toNat + j := by
    rw [BitVec.toNat_add, BitVec.toNat_ofNat]
    omega
  rw [loadImage_read, dif_pos ⟨by omega, by omega⟩]
  simp [haddress]

/-- A cell an image does not cover is as before its load (20_memory.md R71). -/
theorem loadImage_read_other {origin : Word} {words : List Word} (m : Memory) {a : Word}
    (h : ∀ j, j < words.length → a ≠ origin + BitVec.ofNat 16 j) :
    Memory.read (loadImage ⟨origin, words⟩ m) a.toNat = Memory.read m a.toNat := by
  rw [loadImage_read, dif_neg]
  rintro ⟨hlow, hhigh⟩
  refine h (a.toNat - origin.toNat) (by omega) (BitVec.eq_of_toNat_eq ?_)
  rw [BitVec.toNat_add, BitVec.toNat_ofNat]
  omega

/-- Settles O57: the file is read as its image, whose load writes the covered cells and no other. -/
theorem imageLoadPlacesThePayload : Obligations.ImageLoadPlacesThePayload := by
  unfold Obligations.ImageLoadPlacesThePayload
  intro p origin words inQueue arrivals refill hfits
  have hload : loadImages [imageFile origin words] p.initMem = .ok (loadImage ⟨origin, words⟩ p.initMem) :=
    loadImages_cons_ok (parseImage_fits hfits) _ _
  exact ⟨_, launch_of_ok hload _ _ _, fun j hj => loadImage_read_word hfits _ hj,
    fun a ha => loadImage_read_other _ ha, rfl⟩

/-- Settles O58: the second load writes its own cells and leaves every other as the first left it. -/
theorem laterImagesOverwrite : Obligations.LaterImagesOverwrite := by
  unfold Obligations.LaterImagesOverwrite
  intro p o₁ o₂ ws₁ ws₂ inQueue arrivals refill hfits₁ hfits₂
  have hload : loadImages [imageFile o₁ ws₁, imageFile o₂ ws₂] p.initMem =
      .ok (loadImage ⟨o₂, ws₂⟩ (loadImage ⟨o₁, ws₁⟩ p.initMem)) :=
    (loadImages_cons_ok (parseImage_fits hfits₁) _ _).trans (loadImages_cons_ok (parseImage_fits hfits₂) _ _)
  exact ⟨_, launch_of_ok hload _ _ _, fun k hk => loadImage_read_word hfits₂ _ hk,
    fun j hj hother => (loadImage_read_other _ hother).trans (loadImage_read_word hfits₁ _ hj),
    fun a h₁ h₂ => (loadImage_read_other _ h₂).trans (loadImage_read_other _ h₁)⟩

/-- Settles O59: a load stops at the first file that is no image, with its reason. -/
theorem illFormedImagesAreRefused : Obligations.IllFormedImagesAreRefused := by
  unfold Obligations.IllFormedImagesAreRefused
  intro p before after inQueue arrivals refill
  refine ⟨fun file hill hmem => ?_, fun hbefore => ?_⟩
  · obtain ⟨why, hparse⟩ := parseImage_illFormed hill
    obtain ⟨why', hload⟩ := loadImages_error_of_mem hparse (List.mem_append_left after hmem) p.initMem
    exact ⟨why', launch_of_error hload _ _ _⟩
  · obtain ⟨m, hm⟩ := loadImages_append_fits hbefore p.initMem
    have hrefused {file : List Byte} {why : ImageError} (hparse : parseImage file = .error why) :
        launch p (before ++ file :: after) inQueue arrivals refill = .refused (.illFormedImage why) :=
      launch_of_error ((hm _).trans (loadImages_cons_error hparse after m)) _ _ _
    refine ⟨fun file h => hrefused (parseImage_tooShort h), fun file h hodd => hrefused (parseImage_oddLength h hodd),
      fun origin words h => hrefused (parseImage_pastEnd h), fun origin => launch_congr ?_ _ _ _⟩
    have hparse : parseImage (imageFile origin []) = .ok ⟨origin, []⟩ := parseImage_fits origin.isLt.le
    rw [hm, hm, loadImages_cons_ok hparse]
    rfl

end Sys2Proof.Machine
end

section
/-! SUPPORT. Proofs of the statements of 30_encoding.md: the decoder undoes the encoder (R83, R84), the decode table
(R82, R96), the ignored bits (R98), sample words (R84), and BR's two extreme masks (R99). -/

namespace Sys2Proof.Machine

/-! ### Fields that a mask keeps -/

/-- Words that agree under a mask agree on every field the mask keeps. -/
theorem field_eq_of_and_eq {v w m : Word} (h : w &&& m = v &&& m) (lo n : Nat)
    (hkept : m.extractLsb' lo n = BitVec.allOnes n := by simp only [ignoredBits]; decide) :
    w.extractLsb' lo n = v.extractLsb' lo n := by
  have hfield := congrArg (BitVec.extractLsb' lo n) h
  rwa [BitVec.extractLsb'_and, BitVec.extractLsb'_and, hkept, BitVec.and_allOnes, BitVec.and_allOnes] at hfield

theorem regField_eq_of_and_eq {v w m : Word} (h : w &&& m = v &&& m) (lo : Nat)
    (hkept : m.extractLsb' lo 3 = BitVec.allOnes 3 := by simp only [ignoredBits]; decide) :
    regField w lo = regField v lo :=
  congrArg BitVec.toFin (field_eq_of_and_eq h lo 3 hkept)

/-- Words that agree under a mask agree on every bit the mask keeps. -/
theorem bit_eq_of_and_eq {v w m : Word} (h : w &&& m = v &&& m) (k : Nat)
    (hkept : m.getLsbD k = true := by simp only [ignoredBits]; decide) : w.getLsbD k = v.getLsbD k := by
  have hbit := congrArg (BitVec.getLsbD · k) h
  simpa only [BitVec.getLsbD_and, hkept, Bool.and_true] using hbit

/-- Changing masked bits does not show outside the mask. -/
theorem xor_and_and_not (w flips m : Word) : (w ^^^ (flips &&& m)) &&& ~~~ m = w &&& ~~~ m := by
  ext k hk
  simp only [BitVec.getElem_and, BitVec.getElem_xor, BitVec.getElem_not]
  cases m[k] <;> simp

/-! ### The decoder reads no ignored bit -/

@[simp] theorem ignoredBits_decodeJmp (base : Reg) : ignoredBits (decodeJmp base) = 0x0E3F := by
  unfold decodeJmp
  split <;> rfl

@[simp] theorem ignoredBits_decodeTrap (vect : BitVec 8) : ignoredBits (decodeTrap vect) = 0x0F00 := by
  unfold decodeTrap
  split_ifs <;> rfl

/-- No instruction ignores a bit of its opcode (30_encoding.md R81). -/
theorem opcode_not_ignored (i : Instr) : (~~~ ignoredBits i).extractLsb' 12 4 = BitVec.allOnes 4 := by
  cases i <;> simp only [ignoredBits] <;> decide

/-- The decoder reads no bit that the instruction it gives ignores (30_encoding.md R98): each of its arms reads fields
that the arm's instruction keeps. -/
theorem decode_congr {v w : Word} (h : w &&& ~~~ ignoredBits (decode v) = v &&& ~~~ ignoredBits (decode v)) :
    decode w = decode v := by
  have hop := field_eq_of_and_eq h 12 4 (opcode_not_ignored _)
  unfold decode at h ⊢
  rw [hop]
  generalize (v.extractLsb' 12 4).toNat = op at h
  split at h
  case h_1 => rw [field_eq_of_and_eq h 9 3, field_eq_of_and_eq h 0 9]
  case h_2 | h_6 =>
    split at h
    case isTrue hmode =>
      rw [bit_eq_of_and_eq h 5, if_pos hmode, if_pos hmode, regField_eq_of_and_eq h 9, regField_eq_of_and_eq h 6,
        field_eq_of_and_eq h 0 5]
    case isFalse hmode =>
      rw [bit_eq_of_and_eq h 5, if_neg hmode, if_neg hmode, regField_eq_of_and_eq h 9, regField_eq_of_and_eq h 6,
        regField_eq_of_and_eq h 0]
  case h_3 | h_4 | h_11 | h_12 | h_15 => rw [regField_eq_of_and_eq h 9, field_eq_of_and_eq h 0 9]
  case h_5 =>
    split at h
    case isTrue hmode => rw [bit_eq_of_and_eq h 11, if_pos hmode, if_pos hmode, field_eq_of_and_eq h 0 11]
    case isFalse hmode => rw [bit_eq_of_and_eq h 11, if_neg hmode, if_neg hmode, regField_eq_of_and_eq h 6]
  case h_7 | h_8 => rw [regField_eq_of_and_eq h 9, regField_eq_of_and_eq h 6, field_eq_of_and_eq h 0 6]
  case h_9 | h_14 => rfl
  case h_10 => rw [regField_eq_of_and_eq h 9, regField_eq_of_and_eq h 6]
  case h_13 =>
    rw [ignoredBits_decodeJmp] at h
    rw [regField_eq_of_and_eq h 6 (by decide)]
  case h_16 =>
    rw [ignoredBits_decodeTrap] at h
    rw [field_eq_of_and_eq h 0 8 (by decide)]

/-! ### The encoder writes every bit that is not ignored -/

@[simp] theorem regBits_regField (w : Word) (lo : Nat) : regBits (regField w lo) = w.extractLsb' lo 3 := rfl

/-- RET's word is that of JMP with BaseR 7 (41_control.md R122). -/
theorem encode_decodeJmp (base : Reg) :
    encode (decodeJmp base) = 0b1100#4 ++ 0b000#3 ++ regBits base ++ 0b000000#6 := by
  unfold decodeJmp
  split
  case isTrue h => rw [h]; rfl
  case isFalse => rfl

theorem encode_decodeTrap (vect : BitVec 8) : encode (decodeTrap vect) = trapWord vect := by
  unfold decodeTrap
  split_ifs <;> simp only [encode, *]

/-- A word is its opcode before its low 12 bits (30_encoding.md R81). -/
theorem eq_opcode_append {w : Word} {op : Nat} (h : (w.extractLsb' 12 4).toNat = op) :
    w = BitVec.ofNat 4 op ++ w.extractLsb' 0 12 := by
  rw [← h, BitVec.ofNat_toNat, BitVec.setWidth_eq]
  exact (BitVec.extractLsb'_append_extractLsb' (w := 4) (len := 12)).symm

/-- Encoding what a word decodes to gives back all bits of the word that are not ignored (30_encoding.md R98): arm by
arm of the decoder, each bit of the encoding is an opcode bit, a mode bit, or the field's bit at its own position. -/
theorem encode_decode_kept (w : Word) :
    encode (decode w) &&& ~~~ ignoredBits (decode w) = w &&& ~~~ ignoredBits (decode w) := by
  refine Laws.RowMatch.word_ext fun k => ?_
  unfold decode
  generalize hop : (w.extractLsb' 12 4).toNat = op
  have hlt : op < 16 := hop ▸ (w.extractLsb' 12 4).isLt
  conv_rhs => arg 1; arg 1; rw [eq_opcode_append hop]
  clear hop
  split
  case' h_2 | h_5 | h_6 => split
  case' h_13 => rw [encode_decodeJmp, ignoredBits_decodeJmp]
  case' h_16 =>
    obtain rfl : op = 15 := by grind
    rw [encode_decodeTrap, ignoredBits_decodeTrap, trapWord]
  all_goals
    simp only [encode, ignoredBits, regBits_regField, BitVec.getLsbD_and, BitVec.getLsbD_append]
    fin_cases k <;>
      simp only [*, BitVec.getLsbD_not, BitVec.getLsbD_extractLsb', BitVec.ofNat_eq_ofNat, BitVec.reduceGetLsb,
        Nat.reduceLT, Nat.reduceSub, Nat.reduceAdd, if_true, if_false, decide_true, decide_false, Bool.not_true,
        Bool.true_and, Bool.false_and, Bool.and_false]

/-- Settles O3: the decoder reads no ignored bit, and the encoder writes every other bit. -/
theorem onlyIgnoredBitsAreLost : Obligations.OnlyIgnoredBitsAreLost := by
  unfold Obligations.OnlyIgnoredBitsAreLost
  exact ⟨fun w flips => decode_congr (xor_and_and_not w flips _), encode_decode_kept⟩

/-! ### The decoder undoes the encoder -/

theorem decodeJmp_of_wellFormed {base : Reg} (h : (Instr.jmp base).WellFormed) : decodeJmp base = .jmp base := by
  have hbase : base ≠ 7 := by simpa [Instr.WellFormed, Instr.wf] using h
  rw [decodeJmp, if_neg hbase]

theorem decodeTrap_of_wellFormed {vect : BitVec 8} (h : (Instr.trap vect).WellFormed) :
    decodeTrap vect = .trap vect := by
  rw [trap_wellFormed_iff] at h
  simp only [definedVectors, List.mem_cons, List.not_mem_nil, or_false, not_or] at h
  obtain ⟨h20, h21, h22, h23, h24, h25⟩ := h
  rw [decodeTrap, if_neg h20, if_neg h21, if_neg h22, if_neg h23, if_neg h24, if_neg h25]

/-- The decoder reads each field of an encoding where the encoder put it (30_encoding.md R83, R84); well-formedness
matters for JMP and TRAP only. -/
theorem decode_encode {i : Instr} (hwf : i.WellFormed) : decode (encode i) = i := by
  cases i
  case rti | ret | res | getc | out | puts | inChar | putsp | halt => decide
  all_goals
    simp only [encode, trapWord, decode, regField, regBits, BitVec.extractLsb'_append_eq_of_le,
      BitVec.extractLsb'_append_eq_of_add_le, BitVec.extractLsb'_eq_self, BitVec.reduceExtractLsb',
      BitVec.getLsbD_append, BitVec.reduceGetLsb, BitVec.reduceToNat, Nat.reduceLeDiff, Nat.reduceLT, Nat.reduceSub,
      Nat.le_refl, if_true, if_false, Bool.false_eq_true]
  case jmp => exact decodeJmp_of_wellFormed hwf
  case trap => exact decodeTrap_of_wellFormed hwf

/-- Settles O1: field by field of each format. -/
theorem decodeOfEncodeIsTheInstruction : Obligations.DecodeOfEncodeIsTheInstruction := by
  unfold Obligations.DecodeOfEncodeIsTheInstruction
  exact fun _ => decode_encode

/-- A word that differs from an instruction's encoding in ignored bits only decodes to the instruction. -/
theorem decode_of_kept_eq {w : Word} {i : Instr} (hwf : i.WellFormed)
    (h : w &&& ~~~ ignoredBits i = encode i &&& ~~~ ignoredBits i) : decode w = i := by
  have hi := decode_encode hwf
  exact (decode_congr (v := encode i) (by rwa [hi])).trans hi

/-! ### The decode table -/

/-- A row of the table looks at no bit that its instructions ignore. -/
theorem rowOf_mask_kept (i : Instr) : ~~~ ignoredBits i &&& (rowOf i).mask = (rowOf i).mask := by
  cases i <;> simp only [ignoredBits, rowOf] <;> decide

/-- A word selects the row of the instruction it decodes to (30_encoding.md R96): it has the kept bits of the encoding,
which selects that row. -/
theorem selects_rowOf_decode (w : Word) : w &&& (rowOf (decode w)).mask = (rowOf (decode w)).value := by
  have hrow : encode (decode w) &&& (rowOf (decode w)).mask = (rowOf (decode w)).value := Laws.RowMatch.all _
  rw [← rowOf_mask_kept, ← BitVec.and_assoc] at hrow ⊢
  rwa [← encode_decode_kept]

/-- A row that looks at every kept bit is selected by the words of one instruction only. -/
theorem decode_of_full_row {w : Word} {i : Instr} (hwf : i.WellFormed) (hfull : (rowOf i).mask = ~~~ ignoredBits i)
    (h : w &&& (rowOf i).mask = (rowOf i).value) : decode w = i :=
  decode_of_kept_eq hwf (by rw [← hfull, h]; exact (Laws.RowMatch.all i).symm)

/-- The rows a word selects (30_encoding.md R96): a row fixes the opcode and the mode bit, and with them the decoder's
arm; only JMP's and TRAP's arms give instructions of several rows. -/
theorem rowOf_of_selects {w : Word} {i : Instr} (hwf : i.WellFormed)
    (h : w &&& (rowOf i).mask = (rowOf i).value) :
    rowOf i = rowOf (decode w) ∨ (rowOf i = ⟨0xF000, 0xC000⟩ ∧ decode w = .ret) ∨
      (rowOf i = ⟨0xF000, 0xF000⟩ ∧ decode w ∈ [Instr.getc, .out, .puts, .inChar, .putsp, .halt]) := by
  have hfixed : w &&& (rowOf i).mask = (rowOf i).value &&& (rowOf i).mask := by
    rw [← h, BitVec.and_assoc, BitVec.and_self]
  have hop := field_eq_of_and_eq hfixed 12 4 (by cases i <;> simp only [rowOf] <;> decide)
  cases i
  case ret | rti | res | getc | out | puts | inChar | putsp | halt =>
    exact .inl (by rw [decode_of_full_row hwf (by decide) h])
  case jmp =>
    have hdecode : decode w = decodeJmp (regField w 6) := by simp [decode, hop, rowOf]
    rw [hdecode, decodeJmp]
    split
    case isTrue => exact .inr (.inl ⟨rfl, rfl⟩)
    case isFalse => exact .inl rfl
  case trap =>
    have hdecode : decode w = decodeTrap (w.extractLsb' 0 8) := by simp [decode, hop, rowOf]
    rw [hdecode]
    by_cases hvect : w.extractLsb' 0 8 ∈ definedVectors
    · exact .inr (.inr ⟨rfl, exec_trap_defined hvect⟩)
    · exact .inl (by rw [decodeTrap_of_wellFormed (trap_wellFormed_iff.2 hvect)]; rfl)
  case addReg | addImm | andReg | andImm =>
    have hmode := bit_eq_of_and_eq hfixed 5 (by simp only [rowOf]; decide)
    exact .inl (by simp [decode, hop, hmode, rowOf, -BitVec.getLsbD_eq_getElem])
  case jsr | jsrr =>
    have hmode := bit_eq_of_and_eq hfixed 11 (by simp only [rowOf]; decide)
    exact .inl (by simp [decode, hop, hmode, rowOf, -BitVec.getLsbD_eq_getElem])
  case br | ld | st | ldr | str | not | ldi | sti | lea => exact .inl (by simp [decode, hop, rowOf])

/-- Settles O2: the decoder's instruction is well-formed, its row is selected, and any other selected row is JMP's or
TRAP's. -/
theorem everyWordSelectsItsRowAlone : Obligations.EveryWordSelectsItsRowAlone := by
  unfold Obligations.EveryWordSelectsItsRowAlone
  exact fun w => ⟨decode_wellFormed w, selects_rowOf_decode w, fun _ => rowOf_of_selects⟩

/-- Settles O4, by running the decoder on the thirteen words. -/
theorem sampleWordsDecode : Obligations.SampleWordsDecode := by
  unfold Obligations.SampleWordsDecode
  decide

/-! ### BR's extreme masks -/

theorem branchTaken_emptyMask (c : Cond) : branchTaken 0b000 c = false := by cases c <;> rfl

theorem branchTaken_fullMask (c : Cond) : branchTaken 0b111 c = true := by cases c <;> rfl

/-- Settles O35: the empty mask meets no flag, the full mask each of them. -/
theorem emptyMaskIsNoOpAndFullMaskAlwaysBranches : Obligations.EmptyMaskIsNoOpAndFullMaskAlwaysBranches := by
  unfold Obligations.EmptyMaskIsNoOpAndFullMaskAlwaysBranches
  intro off s
  rw [exec, exec, execBr, execBr, branchTaken_emptyMask, branchTaken_fullMask]
  exact ⟨rfl, rfl⟩

end Sys2Proof.Machine
end

section
/-! SUPPORT. Proofs of the statements of 40_alu.md: ADD, AND and NOT (R110 to R114), each as its words, its result and
what it leaves unchanged. -/

namespace Sys2Proof.Machine

/-! ### Words that differ in an ignored field -/

/-- Words that differ in one field only agree under a mask that is clear on the field. -/
theorem append_field_and_eq {n k l : Nat} (hi : BitVec n) (x y : BitVec k) (lo : BitVec l) {mask : BitVec (n + k + l)}
    (hclear : mask.extractLsb' l k = 0#k) : (hi ++ x ++ lo) &&& mask = (hi ++ y ++ lo) &&& mask := by
  refine BitVec.eq_of_getLsbD_eq fun i _ => ?_
  rw [BitVec.getLsbD_and, BitVec.getLsbD_and]
  by_cases hlo : i < l
  · simp only [BitVec.getLsbD_append, hlo, if_true]
  by_cases hfield : i - l < k
  · have hbit : mask.getLsbD i = false := by
      simpa [hfield, Nat.add_sub_cancel' (Nat.le_of_not_lt hlo)] using congrArg (BitVec.getLsbD · (i - l)) hclear
    rw [hbit, Bool.and_false, Bool.and_false]
  · simp only [BitVec.getLsbD_append, hlo, hfield, if_false]

/-- The same for the lowest field. -/
theorem append_low_and_eq {n k : Nat} (hi : BitVec n) (x y : BitVec k) {mask : BitVec (n + k)}
    (hclear : mask.extractLsb' 0 k = 0#k) : (hi ++ x) &&& mask = (hi ++ y) &&& mask := by
  simpa only [BitVec.append_zero_width] using append_field_and_eq hi x y 0#0 hclear

/-- Bits 4:3 of a word in register mode are ignored, 000 in bits 5:3 being the conventional value (30_encoding.md R84,
R98). -/
theorem registerMode_kept (op : BitVec 4) (d a b : BitVec 3) (ign : BitVec 2) :
    (op ++ d ++ a ++ 0b0#1 ++ ign ++ b : Word) &&& ~~~0x0018 = (op ++ d ++ a ++ 0b000#3 ++ b : Word) &&& ~~~0x0018 :=
  (append_field_and_eq (op ++ d ++ a ++ 0b0#1) ign 0b00#2 b (by decide)).trans
    (congrArg (fun hi => (hi ++ b : Word) &&& ~~~0x0018) (BitVec.append_assoc (x₁ := op ++ d ++ a)))

/-! ### The result rule -/

/-- `writeResult` writes the result and its flag, and nothing else (40_alu.md R110 to R114). -/
theorem writeResult_onlyResultWritten (dr : Reg) (v : Word) (s : State) :
    OnlyResultWritten dr v s (writeResult dr v s) := by
  refine ⟨writeResult_x_same dr v s, ?_, fun r hr => ?_, rfl, fun _ => rfl, ⟨rfl, rfl, rfl, rfl⟩, rfl, rfl, rfl⟩
  · rw [writeResult_cond]
    exact isFlagOf_condOf v
  · rw [writeResult_x, if_neg hr.symm]

/-- An instruction that ends with `writeResult` completes, with that result alone. -/
theorem onlyResultWritten_of_exec {i : Instr} {dr : Reg} {v : Word} {s : State}
    (h : exec i s = .next (writeResult dr v s)) : ∃ t, exec i s = .next t ∧ OnlyResultWritten dr v s t :=
  ⟨_, h, writeResult_onlyResultWritten dr v s⟩

/-! ### The three operations -/

/-- Settles O25: the words of both modes agree with their encodings but for ignored bits, and both meanings are a
`writeResult` of the sum. -/
theorem addWritesTheSum : Obligations.AddWritesTheSum := by
  unfold Obligations.AddWritesTheSum
  refine ⟨fun d a b ign => ?_, fun d a imm => ?_, fun dr sr1 sr2 s => ?_, fun dr sr1 imm s => ?_⟩
  · exact decode_of_kept_eq rfl (registerMode_kept 0b0001 d a b ign)
  · exact decode_encode (i := .addImm d.toFin a.toFin imm) rfl
  · exact onlyResultWritten_of_exec rfl
  · exact onlyResultWritten_of_exec rfl

/-- Settles O26: as for ADD, with the bitwise and. -/
theorem andWritesTheConjunction : Obligations.AndWritesTheConjunction := by
  unfold Obligations.AndWritesTheConjunction
  refine ⟨fun d a b ign => ?_, fun d a imm => ?_, fun dr sr1 sr2 s => ?_, fun dr sr1 imm s => ?_⟩
  · exact decode_of_kept_eq rfl (registerMode_kept 0b0101 d a b ign)
  · exact decode_encode (i := .andImm d.toFin a.toFin imm) rfl
  · exact onlyResultWritten_of_exec rfl
  · exact onlyResultWritten_of_exec rfl

/-- Settles O27: bits 5:0 of NOT's word are ignored, and its meaning is a `writeResult` of the complement. -/
theorem notWritesTheComplement : Obligations.NotWritesTheComplement := by
  unfold Obligations.NotWritesTheComplement
  refine ⟨fun d a ign => ?_, fun dr sr s => ?_⟩
  · exact decode_of_kept_eq rfl (append_low_and_eq (0b1001#4 ++ d ++ a) ign 0b111111#6 (mask := ~~~0x003F) (by decide))
  · exact onlyResultWritten_of_exec rfl

end Sys2Proof.Machine
end

section
/-! SUPPORT. Proofs of the statements of 41_control.md: BR, JMP and RET, JSR and JSRR (R120 to R124), each as its words,
where it goes and what it leaves unchanged. -/

namespace Sys2Proof.Machine

/-! ### What a jump changes -/

/-- A write of `pc` is a jump without a link (41_control.md R120 to R122). -/
theorem setPc_onlyJumped (s : State) (target : Word) : OnlyJumped target none s (s.setPc target) :=
  ⟨rfl, nofun, fun _ _ => rfl, rfl, fun _ => rfl, ⟨rfl, rfl, rfl, rfl⟩, rfl, rfl, rfl⟩

/-- The link write and then a write of `pc` are a jump with a link (41_control.md R123, R124). -/
theorem linkR7_setPc_onlyJumped (s : State) (target : Word) :
    OnlyJumped target (some s.pc) s ((linkR7 s).setPc target) := by
  refine ⟨rfl, fun l hl => ?_, fun r hr => ?_, rfl, fun _ => rfl, ⟨rfl, rfl, rfl, rfl⟩, rfl, rfl, rfl⟩
  · rw [setPc_x, linkR7_x_seven]
    exact Option.some.inj hl
  · have hr7 : r ≠ 7 := hr.resolve_right nofun
    rw [setPc_x, linkR7_x, if_neg hr7.symm]

/-! ### BR -/

/-- BR's word with the mask written as three bits is its word with the mask written as one field. -/
theorem branchWord_eq_encode (n z p : BitVec 1) (off : BitVec 9) :
    (0b0000#4 ++ n ++ z ++ p ++ off : Word) = encode (.br (n ++ z ++ p) off) := by
  have hmask : (0b0000#4 ++ n ++ z ++ p : BitVec 7) = 0b0000#4 ++ (n ++ z ++ p) :=
    (congrArg (· ++ p) (BitVec.append_assoc (x₁ := 0b0000#4))).trans (BitVec.append_assoc (x₁ := 0b0000#4))
  exact congrArg (fun hi => (hi ++ off : Word)) hmask

/-- The mask meets the flag when the flag's own bit is set: bit 11 NEGATIVE, bit 10 ZERO, bit 9 POSITIVE
(30_encoding.md R90). -/
theorem branchTaken_iff (n z p : BitVec 1) (c : Cond) :
    branchTaken (n ++ z ++ p) c = true ↔ c = .negative ∧ n = 1 ∨ c = .zero ∧ z = 1 ∨ c = .positive ∧ p = 1 := by
  revert n z p
  cases c <;> decide

/-- BR writes `pc`: the target when the mask meets the flag, else the `pc` it had (41_control.md R120). -/
theorem exec_br (nzp : BitVec 3) (off : BitVec 9) (s : State) :
    exec (.br nzp off) s = .next (s.setPc (if branchTaken nzp s.cond then pcRelative off s else s.pc)) := by
  rw [exec, execBr]
  split <;> rfl

/-- Settles O34: BR writes `pc` alone, with the target exactly when the flag's own mask bit is set. -/
theorem branchTakenByMask : Obligations.BranchTakenByMask := by
  unfold Obligations.BranchTakenByMask
  refine ⟨fun n z p off => ?_, fun n z p off s => ⟨_, exec_br _ off s, fun htaken => ?_, fun hnot => ?_⟩⟩
  · rw [branchWord_eq_encode]
    exact decode_encode rfl
  · rw [if_pos ((branchTaken_iff n z p s.cond).2 htaken)]
    exact setPc_onlyJumped s _
  · rw [if_neg (mt (branchTaken_iff n z p s.cond).1 hnot)]
    exact setPc_onlyJumped s _

/-! ### Jumps through a register -/

/-- A base register between two ignored fields: the words of JMP and JSRR (30_encoding.md R84, R98). -/
theorem aroundBase_kept {n k : Nat} (op : BitVec n) (ign ign' : BitVec k) (b : BitVec 3) (low low' : BitVec 6)
    {mask : BitVec (n + k + 3 + 6)} (hign : mask.extractLsb' 9 k = 0#k) (hlow : mask.extractLsb' 0 6 = 0#6) :
    (op ++ ign ++ b ++ low) &&& mask = (op ++ ign' ++ b ++ low') &&& mask := by
  have hassoc (x : BitVec k) : op ++ x ++ b ++ low' = op ++ x ++ (b ++ low') := BitVec.append_assoc
  calc (op ++ ign ++ b ++ low) &&& mask
    _ = (op ++ ign ++ b ++ low') &&& mask := append_low_and_eq _ low low' hlow
    _ = (op ++ ign' ++ b ++ low') &&& mask := by
      rw [hassoc, hassoc]
      exact append_field_and_eq op ign ign' (b ++ low') hign

/-- The decoder reads the base register of a word of opcode 1100, whatever the bits on both sides of it. -/
theorem decode_jmpWord (ign₁ b : BitVec 3) (ign₂ : BitVec 6) :
    decode (0b1100#4 ++ ign₁ ++ b ++ ign₂) = decodeJmp b.toFin := by
  refine decode_of_kept_eq (decodeJmp_wellFormed _) ?_
  rw [ignoredBits_decodeJmp, encode_decodeJmp]
  exact aroundBase_kept 0b1100#4 ign₁ 0b000#3 b ign₂ 0b000000#6 (by decide) (by decide)

/-- Settles O36: both meanings write `pc` alone, with the base register. -/
theorem jumpGoesToTheRegister : Obligations.JumpGoesToTheRegister := by
  unfold Obligations.JumpGoesToTheRegister
  refine ⟨fun ign₁ b ign₂ => ?_, fun base s => ⟨_, rfl, setPc_onlyJumped s _⟩,
    fun s => ⟨⟨_, rfl, setPc_onlyJumped s _⟩, rfl⟩⟩
  have hseven : b.toFin = 7 ↔ b = 7 := BitVec.toFin_inj (y := 7)
  rw [decode_jmpWord, decodeJmp]
  simp only [hseven]

/-! ### Subroutine calls -/

/-- Settles O37: the link, then `pc` gets the target. -/
theorem jsrLinksAndJumps : Obligations.JsrLinksAndJumps := by
  unfold Obligations.JsrLinksAndJumps
  exact ⟨fun off => decode_encode (i := .jsr off) rfl, fun off s => ⟨_, rfl, linkR7_setPc_onlyJumped s _⟩⟩

/-- The decoder reads the base register of a word of opcode 0100 with bit 11 clear, whatever the bits on both sides. -/
theorem decode_jsrrWord (ign₁ : BitVec 2) (b : BitVec 3) (ign₂ : BitVec 6) :
    decode (0b01000#5 ++ ign₁ ++ b ++ ign₂) = .jsrr b.toFin :=
  decode_of_kept_eq rfl <|
    aroundBase_kept 0b01000#5 ign₁ 0b00#2 b ign₂ 0b000000#6 (mask := ~~~0x063F) (by decide) (by decide)

/-- JSRR jumps with a link to what the base register holds after the link write (41_control.md R124). -/
theorem exec_jsrr_onlyJumped (base : Reg) (s : State) :
    ∃ t, exec (.jsrr base) s = .next t ∧ OnlyJumped ((linkR7 s).x base) (some s.pc) s t :=
  ⟨_, rfl, linkR7_setPc_onlyJumped s _⟩

/-- Settles O38: after the link write R7 holds `pc`, and any other base register what it held. -/
theorem jsrrLinksBeforeItReadsTheBase : Obligations.JsrrLinksBeforeItReadsTheBase := by
  unfold Obligations.JsrrLinksBeforeItReadsTheBase
  refine ⟨decode_jsrrWord, fun base s hbase => ?_, fun s => ?_⟩
  · have hread : (linkR7 s).x base = s.x base := by rw [linkR7_x, if_neg hbase.symm]
    rw [← hread]
    exact exec_jsrr_onlyJumped base s
  · have hjump := exec_jsrr_onlyJumped 7 s
    rwa [linkR7_x_seven] at hjump

end Sys2Proof.Machine
end

section
/-! SUPPORT. Proofs of the statements of 42_load.md: LD, LDI, LDR and LEA (R130 to R136), each as its words, its result
and what it leaves unchanged. -/

namespace Sys2Proof.Machine

/-! ### What reads leave unchanged -/

/-- A poll takes input and writes none (20_memory.md R53). -/
@[simp] theorem pollKeyboard_out (s : State) : (pollKeyboard s).out = s.out := by
  obtain ⟨-, h⟩ | ⟨b, rest, -, h⟩ := pollKeyboard_cases s <;> simp [h, State.out, PortEvent.written]

@[simp] theorem memRead_out (a : Word) (s : State) : (memRead a s).2.out = s.out := by
  obtain h | ⟨-, h⟩ := memRead_state a s <;> simp [h]

/-- From `s` to `t` at most the keyboard was polled: of the state only KBSR, KBDR, the input still to come and the
port log's polls and bytes taken may differ (42_load.md R136). -/
structure AtMostPolled (s t : State) : Prop where
  regs : SameRegs s t
  pc : t.pc = s.pc
  cond : t.cond = s.cond
  control : SameControl s t
  out : t.out = s.out
  refill : t.refill = s.refill
  cells : ∀ a, a ≠ Config.kbsr → a ≠ Config.kbdr → t.cell a = s.cell a

theorem memRead_atMostPolled (a : Word) (s : State) : AtMostPolled s (memRead a s).2 where
  regs := memRead_x a s
  pc := memRead_pc a s
  cond := memRead_cond a s
  control := ⟨memRead_run a s, memRead_abortCause a s, memRead_params a s⟩
  out := memRead_out a s
  refill := memRead_refill a s
  cells _ := memRead_cell_other a s

theorem AtMostPolled.trans {s t u : State} (hst : AtMostPolled s t) (htu : AtMostPolled t u) : AtMostPolled s u where
  regs r := (htu.regs r).trans (hst.regs r)
  pc := htu.pc.trans hst.pc
  cond := htu.cond.trans hst.cond
  control := by
    obtain ⟨hrun, hcause, hparams⟩ := hst.control
    obtain ⟨hrun', hcause', hparams'⟩ := htu.control
    exact ⟨hrun'.trans hrun, hcause'.trans hcause, hparams'.trans hparams⟩
  out := htu.out.trans hst.out
  refill := htu.refill.trans hst.refill
  cells a h₁ h₂ := (htu.cells a h₁ h₂).trans (hst.cells a h₁ h₂)

theorem readAll_atMostPolled (as : List Word) (s : State) : AtMostPolled s (readAll as s) := by
  induction as generalizing s with
  | nil => exact ⟨fun _ => rfl, rfl, rfl, ⟨rfl, rfl, rfl⟩, rfl, rfl, fun _ _ _ => rfl⟩
  | cons a as ih => exact (memRead_atMostPolled a s).trans (ih _)

/-- Reads of plain addresses only leave the state as it is (20_memory.md R54, R58). -/
theorem readAll_plain {as : List Word} (h : Config.kbsr ∉ as) (s : State) : readAll as s = s := by
  induction as with
  | nil => rfl
  | cons a as ih =>
    have ha : a ≠ Config.kbsr := fun heq => h (heq ▸ .head as)
    rw [readAll, memRead_plain ha]
    exact ih fun has => h (.tail a has)

/-! ### Loads as reads and a result -/

/-- A load reads its addresses in order, then writes a result to its destination (42_load.md R134). -/
theorem exec_load {i : Instr} {dr : Reg} {s t : State}
    (hload : (∃ off, i = .ld dr off) ∨ (∃ off, i = .ldi dr off) ∨ (∃ base off, i = .ldr dr base off) ∨
      ∃ off, i = .lea dr off) (h : exec i s = .next t) :
    ∃ v, t = writeResult dr v (readAll (loadAddresses i s) s) := by
  obtain ⟨off, rfl⟩ | ⟨off, rfl⟩ | ⟨base, off, rfl⟩ | ⟨off, rfl⟩ := hload <;> cases h <;> exact ⟨_, rfl⟩

/-- Settles O31: the reads poll at most, and not at all off KBSR's address; then only the result is written. -/
theorem loadFrame : Obligations.LoadFrame := by
  unfold Obligations.LoadFrame
  intro i dr s t hload h
  obtain ⟨v, rfl⟩ := exec_load hload h
  have hreads := readAll_atMostPolled (loadAddresses i s) s
  obtain ⟨-, -, hregs, -, hcells, hports, -⟩ :=
    writeResult_onlyResultWritten dr v (readAll (loadAddresses i s) s)
  refine ⟨fun r hr => (hregs r hr).trans (hreads.regs r), hreads.pc, hreads.control, hreads.out, hreads.refill,
    fun a h₁ h₂ => (hcells a).trans (hreads.cells a h₁ h₂), fun hplain => ?_⟩
  rw [readAll_plain hplain] at hcells hports ⊢
  exact ⟨hcells, hports⟩

/-! ### The four instructions -/

/-- Settles O28: LEA's meaning is a `writeResult` of the address. -/
theorem leaWritesTheAddress : Obligations.LeaWritesTheAddress := by
  unfold Obligations.LeaWritesTheAddress
  exact ⟨fun d off => decode_encode (i := .lea d.toFin off) rfl, fun dr off s => onlyResultWritten_of_exec rfl⟩

/-- A load of one word writes what `MemRead` answers, in the state after the read. -/
theorem loadInto_onlyResultWritten (dr : Reg) (ea : Word) (s : State) :
    OnlyResultWritten dr (memRead ea s).1 (memRead ea s).2 (loadInto dr ea s) :=
  writeResult_onlyResultWritten dr _ _

/-- Settles O29: both meanings are a `loadInto` from the effective address. -/
theorem loadsWriteTheWordRead : Obligations.LoadsWriteTheWordRead := by
  unfold Obligations.LoadsWriteTheWordRead
  exact ⟨fun d off => decode_encode (i := .ld d.toFin off) rfl,
    fun d b off => decode_encode (i := .ldr d.toFin b.toFin off) rfl,
    fun dr off s => ⟨_, rfl, loadInto_onlyResultWritten dr _ s⟩,
    fun dr base off s => ⟨_, rfl, loadInto_onlyResultWritten dr _ s⟩⟩

/-- Settles O30: LDI is a `loadInto` from the pointer read, in the state after that read. -/
theorem loadIndirectReadsTwice : Obligations.LoadIndirectReadsTwice := by
  unfold Obligations.LoadIndirectReadsTwice
  refine ⟨fun d off => decode_encode (i := .ldi d.toFin off) rfl, fun dr off s s₁ s₂ ea v hpointer hdata => ?_⟩
  have hindirect : indirect off s = (ea, s₁) := hpointer
  have hresult := loadInto_onlyResultWritten dr ea s₁
  rw [hdata] at hresult
  exact ⟨loadInto dr ea s₁, by rw [exec, execLdi, hindirect], hresult⟩

end Sys2Proof.Machine
end

section
/-! SUPPORT. Proofs of the statements of 43_store.md: ST, STI and STR (R140 to R142), each as its words, the cell it
writes and what it leaves unchanged. -/

namespace Sys2Proof.Machine

/-! ### Stores as one `MemWrite` -/

/-- An instruction that is one `MemWrite` completes, with that cell alone written. -/
theorem onlyCellWritten_of_exec {i : Instr} {a v : Word} {s u : State} (h : exec i s = .next (memWrite a v u)) :
    ∃ t, exec i s = .next t ∧ OnlyCellWritten a v u t :=
  ⟨_, h, memWriteIsAPlainStore u a v⟩

/-- STI stores to the pointer its read answers, in the state after that read (43_store.md R141); the read leaves the
source register as it was. -/
theorem exec_sti_of_pointer {off : BitVec 9} {s s₁ : State} {ea : Word}
    (hpointer : memRead (pcRelative off s) s = (ea, s₁)) (sr : Reg) :
    exec (.sti sr off) s = .next (memWrite ea (s.x sr) s₁) := by
  have hindirect : indirect off s = (ea, s₁) := hpointer
  have hsource : s₁.x sr = s.x sr := by
    have hread := memRead_x (pcRelative off s) s sr
    rwa [hpointer] at hread
  rw [exec, execSti, hindirect, hsource]

/-! ### The three instructions -/

/-- Settles O32: both meanings are one `MemWrite` at the effective address. -/
theorem storesWriteOneCell : Obligations.StoresWriteOneCell := by
  unfold Obligations.StoresWriteOneCell
  exact ⟨fun r off => decode_encode (i := .st r.toFin off) rfl,
    fun r b off => decode_encode (i := .str r.toFin b.toFin off) rfl,
    fun sr off s => onlyCellWritten_of_exec rfl,
    fun sr base off s => onlyCellWritten_of_exec rfl⟩

/-- Settles O33: after the pointer read STI is one `MemWrite` at the pointer. -/
theorem storeIndirectWritesWhereThePointerSays : Obligations.StoreIndirectWritesWhereThePointerSays := by
  unfold Obligations.StoreIndirectWritesWhereThePointerSays
  exact ⟨fun r off => decode_encode (i := .sti r.toFin off) rfl,
    fun sr off s s₁ ea hpointer => onlyCellWritten_of_exec (exec_sti_of_pointer hpointer sr)⟩

end Sys2Proof.Machine
end

section
/-! SUPPORT. Proofs of the statements of 44_trap.md about the string services: the bound of the loop of PUTS and PUTSP
cuts off no string that ends, with an input that runs out every string ends, and a service completes exactly with the
reads of a terminated string (R154, R156). -/

namespace Sys2Proof.Machine

variable {chars : Word → List Byte}

/-! ### Inputs that run out -/

/-- With no refill the turns of the environment come to outnumber the bytes. -/
theorem runsDry_of_no_refill {s : State} (h : s.refill = []) :
    RunsDry s.inQueue.length (coming s.refill (stringPolls s) s.arrivals) := by
  refine runsDry_of_short ?_
  have hbytes := coming_nil_bytes (stringPolls s) s.arrivals
  have hpolls : stringPolls s = s.arrivals.length + (s.inQueue.length + s.arrivals.flatten.length + 1) := by
    simp [stringPolls, h]
  rw [coming_length, h]
  omega

/-- The schedule, and then a round of the refill for each byte there was before it and one more. -/
def roundsOfRefill (s : State) : Nat :=
  s.arrivals.length + (s.inQueue.length + s.arrivals.flatten.length + 1) * s.refill.length

theorem roundsOfRefill_le_stringPolls (s : State) : roundsOfRefill s ≤ stringPolls s := by
  unfold roundsOfRefill stringPolls
  omega

/-- A refill of fewer bytes than batches loses a byte in each round. -/
theorem runsDry_of_short_refill {s : State} (h : s.refill.flatten.length < s.refill.length) :
    RunsDry s.inQueue.length (coming s.refill (roundsOfRefill s) s.arrivals) := by
  refine runsDry_of_short ?_
  have hrounds := Nat.mul_le_mul_left (s.inQueue.length + s.arrivals.flatten.length + 1) (Nat.succ_le_of_lt h)
  rw [Nat.mul_succ] at hrounds
  rw [coming_length, roundsOfRefill, coming_schedule, List.flatten_append, List.length_append, coming_rounds_bytes]
  omega

/-- The schedule and the first round of the refill. -/
theorem coming_first_round (s : State) :
    coming s.refill (s.arrivals.length + s.refill.length) s.arrivals = s.arrivals ++ s.refill := by
  have hround := coming_round s.refill 0
  rw [Nat.add_zero, coming, List.append_nil] at hround
  rw [coming_schedule, hround]

theorem firstRound_le_stringPolls (s : State) : s.arrivals.length + s.refill.length ≤ stringPolls s := by
  have hround := Nat.le_mul_of_pos_left s.refill.length (Nat.succ_pos (s.inQueue.length + s.arrivals.flatten.length))
  simp only [stringPolls, Nat.succ_eq_add_one] at hround ⊢
  omega

/-! ### The bound of the loop -/

/-- An input that runs dry within the polls of the bound ends every string within the bound. -/
theorem putString_ends_of_dry {k : Nat} {s : State} (hk : k ≤ stringPolls s)
    (hd : RunsDry s.inQueue.length (coming s.refill k s.arrivals)) (a : Word) :
    ∃ t, putString chars (stringFuel s) a s = .ok t := by
  have hlap := distance_lt a Config.kbsr
  refine putString_ends_when_dry hd ?_
  simp only [stringFuel, Config.memSize]
  omega

/-- A state whose input runs out ends every string within the bound (44_trap.md R154, R156). -/
theorem putString_ends_when_input_runs_out {s : State}
    (h : (∀ batch ∈ s.refill, batch = []) ∨ s.refill.flatten.length < s.refill.length) (a : Word) :
    ∃ t, putString chars (stringFuel s) a s = .ok t := by
  by_cases hr : s.refill = []
  · exact putString_ends_of_dry le_rfl (runsDry_of_no_refill hr) a
  · have hshort : s.refill.flatten.length < s.refill.length := by
      obtain hempty | hshort := h
      · rw [List.flatten_eq_nil_iff.mpr hempty]
        exact List.length_pos_iff.mpr hr
      · exact hshort
    exact putString_ends_of_dry (roundsOfRefill_le_stringPolls s) (runsDry_of_short_refill hshort) a

/-- A 0 byte in `IN`, the schedule or the refill ends every string within the bound. -/
theorem putString_ends_of_zero_byte {s : State}
    (h : (0 : Byte) ∈ s.inQueue ++ s.arrivals.flatten ++ s.refill.flatten) (a : Word) :
    ∃ t, putString chars (stringFuel s) a s = .ok t := by
  obtain ⟨z, hz, hbyte⟩ := List.getElem_of_mem h
  have hlap := distance_lt a Config.kbsr
  have hplace : z + 1 ≤ stringPolls s := by
    simp only [List.length_append] at hz
    unfold stringPolls
    omega
  refine putString_ends_at_zero_byte (k := s.arrivals.length + s.refill.length) (z := z) ?_ ?_
  · rw [coming_first_round, List.flatten_append, ← List.append_assoc, List.getElem?_eq_getElem hz, hbyte]
  · simp only [stringFuel, Config.memSize]
    omega

/-- A string that has not ended within the bound has a sustained input: any other runs dry or brings a 0 byte. -/
theorem sustained_of_not_ended {a : Word} {s : State} (h : ∀ t, putString chars (stringFuel s) a s ≠ .ok t) :
    Sustained s := by
  have hnot : ¬ ∃ t, putString chars (stringFuel s) a s = .ok t := fun ⟨t, ht⟩ => h t ht
  refine ⟨fun hr => hnot ?_, Nat.le_of_not_lt fun hshort => hnot ?_, fun hdry => hnot ?_, fun hzero => hnot ?_⟩
  · exact putString_ends_of_dry le_rfl (runsDry_of_no_refill hr) a
  · exact putString_ends_when_input_runs_out (.inr hshort) a
  · exact putString_ends_of_dry (firstRound_le_stringPolls s) (by rwa [coming_first_round]) a
  · exact putString_ends_of_zero_byte hzero a

/-- A string that has not ended within the bound never ends (60_exceptions.md R190 (b)). -/
theorem putString_never_ends_of_not_ended {a : Word} {s : State}
    (h : ∀ t, putString chars (stringFuel s) a s ≠ .ok t) (fuel : Nat) :
    ∃ reached, putString chars fuel a s = .error reached := by
  have hlap (c : Word) : distance a c < stringFuel s := by
    have := distance_lt a c
    simp only [stringFuel, Config.memSize]
    omega
  refine putString_never_ends fuel (fun c h₁ h₂ hc => ?_) (fun hk hc => ?_) (sustained_of_not_ended h)
  · obtain ⟨t, ht⟩ := putString_ends_at_zero_cell (chars := chars) h₁ h₂ hc (hlap c)
    exact h t ht
  · obtain ⟨t, ht⟩ := putString_ends_at_zero_kbdr (chars := chars) hc hk (hlap _)
    exact h t ht

/-- The bound cuts off no string that ends after some number of reads. -/
theorem putString_stringFuel_of_ends {fuel : Nat} {a : Word} {s t : State} (h : putString chars fuel a s = .ok t) :
    putString chars (stringFuel s) a s = .ok t := by
  cases hbound : putString chars (stringFuel s) a s with
  | ok u =>
    have hleft := putString_mono (Nat.le_max_left fuel (stringFuel s)) h
    have hright := putString_mono (Nat.le_max_right fuel (stringFuel s)) hbound
    exact hright.symm.trans hleft
  | error p =>
    obtain ⟨reached, hnever⟩ := putString_never_ends_of_not_ended (fun u hu => by rw [hbound] at hu; cases hu) fuel
    rw [hnever] at h
    cases h

/-! ### Reads of a string -/

/-- A loop that ends has read a terminated string. -/
theorem readsString_of_putString {fuel : Nat} {a : Word} {s t : State} (h : putString chars fuel a s = .ok t) :
    ∃ ws, ReadsString chars a s ws t := by
  induction fuel generalizing a s with
  | zero => cases h
  | succ fuel ih =>
    by_cases hz : (memRead a s).1 = 0x0000
    · rw [putString_ends_here hz] at h
      cases h
      exact ⟨[], .stop hz⟩
    · rw [putString_goes_on hz] at h
      obtain ⟨ws, hws⟩ := ih h
      exact ⟨_, .char hz hws⟩

/-- The loop reads a terminated string in one read for each word and one for the zero word. -/
theorem ReadsString.putString {a : Word} {s t : State} {ws : List Word} (h : ReadsString chars a s ws t) :
    putString chars (ws.length + 1) a s = .ok t := by
  induction h with
  | stop hz => exact putString_ends_here hz 0
  | char hz _ ih => exact (putString_goes_on hz _).trans ih

/-- A string service whose loop ends completes in the loop's final state. -/
theorem serviceString_of_ends {s t : State} (h : putString chars (stringFuel s) (s.x 0) s = .ok t) :
    serviceString chars s = .next t := by
  rw [serviceString, h]
  rfl

/-- A string service completes exactly with the reads, from R0 on, of a terminated string (44_trap.md R154, R156). -/
theorem serviceString_next_iff {s t : State} :
    serviceString chars s = .next t ↔ ∃ ws, ReadsString chars (s.x 0) s ws t := by
  refine ⟨fun h => readsString_of_putString (serviceString_next h), fun ⟨_, h⟩ => ?_⟩
  exact serviceString_of_ends (putString_stringFuel_of_ends h.putString)

/-- Reading a string writes the characters of each word read, in order. -/
theorem ReadsString.out {a : Word} {s t : State} {ws : List Word} (h : ReadsString chars a s ws t) :
    t.out = s.out ++ ws.flatMap chars := by
  induction h with
  | stop _ => rw [memRead_out, List.flatMap_nil, List.append_nil]
  | char _ _ ih => rw [ih, outWrite_out, memRead_out, List.flatMap_cons, List.append_assoc]

theorem outWrite_nil (s : State) : outWrite [] s = s := by
  simp [outWrite, State.logPorts]

theorem outWrite_outWrite (bs cs : List Byte) (s : State) : outWrite cs (outWrite bs s) = outWrite (bs ++ cs) s := by
  simp [outWrite, State.logPorts]

/-- The next address's string is the string without its first word. -/
theorem HoldsString.tail {a w : Word} {s : State} {ws : List Word} (h : HoldsString s a (w :: ws)) (bs : List Byte) :
    HoldsString (outWrite bs s) (a + 1) ws := by
  obtain ⟨hwords, hend⟩ := h
  have hnext (j : Nat) : a + BitVec.ofNat 16 (j + 1) = a + 1 + BitVec.ofNat 16 j := by
    rw [BitVec.ofNat_add, BitVec.add_assoc, BitVec.add_comm (BitVec.ofNat 16 j)]
    rfl
  refine ⟨fun j hj => ?_, ?_⟩
  · have hword := hwords (j + 1) (Nat.succ_lt_succ hj)
    rwa [hnext] at hword
  · rwa [List.length_cons, hnext] at hend

/-- A terminated string off KBSR is read word by word, and the reads change nothing but the output. -/
theorem readsString_of_holdsString {a : Word} {s : State} {ws : List Word} (h : HoldsString s a ws) :
    ReadsString chars a s ws (outWrite (ws.flatMap chars) s) := by
  induction ws generalizing a s with
  | nil =>
    obtain ⟨-, hzero, hplain⟩ := h
    rw [List.length_nil, BitVec.add_zero] at hzero hplain
    have hread : memRead a s = (0x0000, s) := by rw [memRead_plain hplain, hzero]
    rw [List.flatMap_nil, outWrite_nil]
    have hstop := ReadsString.stop (chars := chars) (a := a) (s := s) (by rw [hread])
    rwa [hread] at hstop
  | cons w ws ih =>
    obtain ⟨hcell, hw, hplain⟩ := h.1 0 (Nat.succ_pos _)
    rw [BitVec.add_zero] at hcell hplain
    have hread : memRead a s = (w, s) := by rw [memRead_plain hplain, hcell, List.getElem_cons_zero]
    have hrest := ih (h.tail (chars w))
    rw [outWrite_outWrite, ← List.flatMap_cons] at hrest
    have hchar := ReadsString.char (chars := chars) (a := a) (s := s) (ws := ws) (by rw [hread]; exact hw)
      (by rw [hread]; exact hrest)
    rwa [hread] at hchar

/-- Settles O46: the bound of the loop holds more polls than the input has bytes to find. -/
theorem stringServicesEndWhenInputRunsOut : Obligations.StringServicesEndWhenInputRunsOut := by
  unfold Obligations.StringServicesEndWhenInputRunsOut
  intro s h
  have hends (chars : Word → List Byte) : ∃ t, serviceString chars (linkR7 s) = .next t := by
    obtain ⟨t, ht⟩ := putString_ends_when_input_runs_out (chars := chars) (s := linkR7 s) h ((linkR7 s).x 0)
    exact ⟨t, serviceString_of_ends ht⟩
  exact ⟨hends putsChars, hends putspChars⟩

end Sys2Proof.Machine
end

section
/-! SUPPORT. Proofs of the statements of 44_trap.md: the dispatch by vector (R150), what a completed TRAP can have changed
(R151), the six services (R152 to R157) and the unknown vector (R158). -/

namespace Sys2Proof.Machine

/-! ### The dispatch -/

/-- The decoder reads the vector of a word of opcode 1111, whatever bits 11:8 (30_encoding.md R98). -/
theorem decode_trapWord (ign : BitVec 4) (v : BitVec 8) : decode (0b1111#4 ++ ign ++ v) = decodeTrap v := by
  refine decode_of_kept_eq (decodeTrap_wellFormed v) ?_
  rw [ignoredBits_decodeTrap, encode_decodeTrap, trapWord]
  exact append_field_and_eq 0b1111#4 ign 0b0000#4 v (by decide)

/-- Settles O39: the decoder spells each vector's service, and both spellings mean the same. -/
theorem trapDispatchesByVector : Obligations.TrapDispatchesByVector := by
  unfold Obligations.TrapDispatchesByVector
  refine ⟨fun ign v => ?_, fun ign v hv => ?_, rfl, rfl, rfl, rfl, rfl, rfl⟩
  · rw [decode_trapWord]
    exact funext (exec_decodeTrap v)
  · rw [decode_trapWord, decodeTrap_of_wellFormed (trap_wellFormed_iff.2 hv)]

/-! ### The frame of a service -/

/-- A result written to one register leaves the others. -/
theorem writeResult_x_other {dr r : Reg} (h : dr ≠ r) (v : Word) (s : State) : (writeResult dr v s).x r = s.x r :=
  (writeResult_x dr v s r).trans (if_neg h)

theorem inRead_regs {s t : State} {b : Byte} (h : inRead s = .ok (b, t)) : t.regs = s.regs := by
  obtain ⟨rest, later, -, rfl⟩ := inRead_cases h
  rfl

theorem inRead_mem {s t : State} {b : Byte} (h : inRead s = .ok (b, t)) : t.mem = s.mem := by
  obtain ⟨rest, later, -, rfl⟩ := inRead_cases h
  rfl

theorem serviceString_regs {chars : Word → List Byte} {s t : State} (h : serviceString chars s = .next t) :
    t.regs = s.regs := by
  have hloop := putString_keeps (P := fun u => u.regs = s.regs) (chars := chars) (fuel := stringFuel s) (a := s.x 0)
    (fun a u hu => (memRead_regs a u).trans hu) (fun _ _ hu => hu) rfl
  rwa [serviceString_next h] at hloop

/-- A service writes R0 at most, so the link stays (44_trap.md R151). -/
theorem trapService_x_seven {vect : BitVec 8} {s t : State} (h : trapService vect s = .next t) : t.x 7 = s.x 7 := by
  unfold trapService at h
  split_ifs at h
  · obtain ⟨b, u, hread, rfl⟩ := serviceGetc_next h
    exact (writeResult_x_other (by decide) _ _).trans (x_congr (inRead_regs hread) 7)
  · cases h
    rfl
  · exact x_congr (serviceString_regs h) 7
  · obtain ⟨b, u, hread, rfl⟩ := serviceIn_next h
    exact (writeResult_x_other (by decide) _ _).trans (x_congr (inRead_regs hread) 7)
  · exact x_congr (serviceString_regs h) 7
  · cases h
    rfl
  · obtain ⟨-, rfl⟩ | ⟨-, rfl⟩ := serviceUnknown_next h <;> rfl

/-- No service but those of PUTS and PUTSP touches memory (44_trap.md R151). -/
theorem trapService_mem {vect : BitVec 8} {s t : State} (hputs : vect ≠ 0x22) (hputsp : vect ≠ 0x24)
    (h : trapService vect s = .next t) : t.mem = s.mem := by
  rw [trapService, if_neg hputs, if_neg hputsp] at h
  split_ifs at h
  · obtain ⟨b, u, hread, rfl⟩ := serviceGetc_next h
    exact (inRead_mem hread :)
  · cases h
    rfl
  · obtain ⟨b, u, hread, rfl⟩ := serviceIn_next h
    exact (inRead_mem hread :)
  · cases h
    rfl
  · obtain ⟨-, rfl⟩ | ⟨-, rfl⟩ := serviceUnknown_next h <;> rfl

/-- The well-formed TRAPs are what the decoder makes of a vector. -/
theorem exists_decodeTrap {i : Instr} (hwf : i.WellFormed) (htrap : isTrap i = true) : ∃ vect, i = decodeTrap vect := by
  cases i with
  | trap vect => exact ⟨vect, (decodeTrap_of_wellFormed hwf).symm⟩
  | getc => exact ⟨0x20, rfl⟩
  | out => exact ⟨0x21, rfl⟩
  | puts => exact ⟨0x22, rfl⟩
  | inChar => exact ⟨0x23, rfl⟩
  | putsp => exact ⟨0x24, rfl⟩
  | halt => exact ⟨0x25, rfl⟩
  | _ => cases htrap

/-- Settles O51: the link, the cells and the run state by the vector's service, the rest by what a TRAP is listed to
write. -/
theorem trapFrame : Obligations.TrapFrame := by
  unfold Obligations.TrapFrame
  intro i s t hwf htrap h
  obtain ⟨vect, rfl⟩ := exists_decodeTrap hwf htrap
  rw [exec_decodeTrap] at h
  have hservice : trapService vect (linkR7 s) = .next t := h
  have hlisted := exec_onlyListedWritten h
  obtain ⟨hparams, hrefill⟩ := (sameSettings_kept s).exec h ⟨rfl, rfl⟩
  refine ⟨?_, hlisted.pc rfl, fun r h0 h7 => hlisted.regs r ?_, fun hgetc hin => ?_, hlisted.cells rfl,
    fun hputs hputsp => ?_, ?_, hrefill, hparams⟩
  · rw [trapService_x_seven hservice, linkR7_x_seven]
  · rw [writtenRegs]
    split <;> simp [h0, h7]
  · have hvect : ¬(vect = 0x20 ∨ vect = 0x23) := by
      rintro (rfl | rfl)
      · exact hgetc rfl
      · exact hin rfl
    exact ⟨hlisted.regs 0 (by rw [writtenRegs, if_neg hvect]; decide), hlisted.cond (if_neg hvect)⟩
  · refine cell_congr (s := linkR7 s) (trapService_mem ?_ ?_ hservice)
    · rintro rfl
      exact hputs rfl
    · rintro rfl
      exact hputsp rfl
  · obtain hrun | ⟨hhalt | hhalt, -⟩ | ⟨hrti | hres, -⟩ | ⟨v, hv, hunknown, -⟩ := exec_run_cases h
    · exact .inr (.inr hrun)
    · cases hhalt
    · cases hhalt
      exact .inl rfl
    · cases hrti
    · cases hres
    · cases hunknown
      exact .inr (.inl ⟨vect, decodeTrap_of_wellFormed (trap_wellFormed_iff.2 hv)⟩)

/-! ### Services that write bytes and no more -/

/-- The link write and then output change R7 and the port log, and nothing else. -/
theorem outWrite_linkR7_onlyLinkedAndWrote (bs : List Byte) (s : State) :
    OnlyLinkedAndWrote (bs.map .wrote) s (outWrite bs (linkR7 s)) := by
  refine ⟨rfl, linkR7_x_seven s, fun r hr => ?_, rfl, rfl, fun _ => rfl, rfl, rfl, rfl, rfl, rfl, rfl⟩
  rw [outWrite_x, linkR7_x, if_neg hr.symm]

theorem linkR7_x_zero (s : State) : (linkR7 s).x 0 = s.x 0 := setX_x_other s s.pc (by decide)

/-- Settles O43: R0 is read after the link write, which leaves it. -/
theorem outWritesTheLowByte : Obligations.OutWritesTheLowByte := by
  unfold Obligations.OutWritesTheLowByte
  refine ⟨fun ign => decode_trapWord ign 0x21, fun s => ⟨_, rfl, ?_⟩⟩
  rw [linkR7_x_zero]
  exact outWrite_linkR7_onlyLinkedAndWrote [lowByte (s.x 0)] s

/-- Settles O49: HALT is the link, the notice written, and `RUN` set. -/
theorem haltWritesTheNoticeAndHalts : Obligations.HaltWritesTheNoticeAndHalts := by
  unfold Obligations.HaltWritesTheNoticeAndHalts
  intro s
  obtain ⟨hlog, hlink, hregs, hpc, hcond, hcells, hin, harrivals, hrefill, -, hcause, hparams⟩ :=
    outWrite_linkR7_onlyLinkedAndWrote s.params.haltNotice s
  exact ⟨haltEngine (outWrite s.params.haltNotice (linkR7 s)), rfl, rfl, hlog, by simp, hlink, hregs, hpc, hcond,
    hcells, hin, harrivals, hrefill, hcause, hparams⟩

/-- `raise Fatal` writes `RUN` and `ABORT_CAUSE`, and nothing else (60_exceptions.md R181). -/
theorem raiseFatal_onlyAborted (cause : FatalCause) (s : State) : OnlyAborted cause s (raiseFatal cause s) :=
  ⟨rfl, rfl, fun _ => rfl, rfl, rfl, fun _ => rfl, ⟨rfl, rfl, rfl, rfl⟩, rfl⟩

/-- Settles O50: after the link the policy decides between nothing and `raise Fatal`. -/
theorem unknownTrapByPolicy : Obligations.UnknownTrapByPolicy := by
  unfold Obligations.UnknownTrapByPolicy
  intro s vect hvect
  obtain ⟨t, ht⟩ := serviceUnknown_completes (linkR7 s)
  refine ⟨t, (exec_trap_unknown hvect s).trans ht, fun hnoop => ?_, fun hfatal => ?_⟩
  · obtain ⟨hp, -⟩ | ⟨-, rfl⟩ := serviceUnknown_next ht
    · exact absurd (hnoop.symm.trans hp) nofun
    · have hlinked := outWrite_linkR7_onlyLinkedAndWrote [] s
      rwa [outWrite_nil] at hlinked
  · obtain ⟨-, rfl⟩ | ⟨hp, -⟩ := serviceUnknown_next ht
    · exact ⟨raiseFatal_onlyAborted _ (linkR7 s), linkR7_x_seven s, rfl⟩
    · exact absurd (hfatal.symm.trans hp) nofun

/-! ### Services that read a byte -/

/-- `InRead` gets the byte that the queue and the schedule give. -/
theorem inRead_of_takeByte {s : State} {b : Byte} {rest : List Byte} {later : List (List Byte)}
    (h : takeByte s.inQueue s.arrivals s.refill = some (b, rest, later)) :
    inRead s = .ok (b, { s with inQueue := rest, arrivals := later }.logPorts [.took b]) := by
  rw [inRead, h]

/-- The flag of a zero-extended byte is never NEGATIVE. -/
theorem condOf_zext8_ne_negative (b : Byte) : condOf (zext8 b) ≠ .negative := by
  have hbit : (zext8 b).getLsbD 15 = false := by
    rw [zext8, BitVec.getLsbD_setWidth, BitVec.getLsbD_of_ge b 15 (by decide), Bool.and_false]
  rw [Ne, condOf_negative_iff, hbit]
  exact Bool.false_ne_true

/-- After the link write, input and port operations, the byte written to R0 is all there is to the change. -/
theorem writeResult_linkR7_onlyCharRead (b : Byte) (rest : List Byte) (later : List (List Byte)) (es : List PortEvent)
    (s : State) :
    OnlyCharRead b rest later es s
      (writeResult 0 (zext8 b) ({ linkR7 s with inQueue := rest, arrivals := later }.logPorts es)) := by
  refine ⟨?_, ?_, fun r h0 h7 => ?_, ?_, ?_, rfl, fun _ => rfl, rfl, rfl, rfl, rfl, rfl, rfl, rfl⟩
  · rw [writeResult_x_same, zext8_eq_append]
  · exact (writeResult_x_other (by decide) _ _).trans (linkR7_x_seven s)
  · exact (writeResult_x_other h0.symm _ _).trans (setX_x_other s _ h7.symm)
  · rw [writeResult_cond, ← zext8_eq_append]
    exact isFlagOf_condOf _
  · rw [writeResult_cond]
    exact condOf_zext8_ne_negative b

/-- GETC reads the byte that the queue and the schedule give (44_trap.md R152). -/
theorem exec_getc_of_takeByte {s : State} {b : Byte} {rest : List Byte} {later : List (List Byte)}
    (h : takeByte s.inQueue s.arrivals s.refill = some (b, rest, later)) :
    ∃ t, exec .getc s = .next t ∧ OnlyCharRead b rest later [.took b] s t := by
  refine ⟨_, ?_, writeResult_linkR7_onlyCharRead b rest later [.took b] s⟩
  rw [exec, execGetc, serviceGetc, inRead_of_takeByte (s := linkR7 s) h]
  rfl

/-- IN prompts, reads the byte that the queue and the schedule give, and echoes it (44_trap.md R155). -/
theorem exec_inChar_of_takeByte {s : State} {b : Byte} {rest : List Byte} {later : List (List Byte)}
    (h : takeByte s.inQueue s.arrivals s.refill = some (b, rest, later)) :
    ∃ t, exec .inChar s = .next t ∧
      OnlyCharRead b rest later (s.params.inPrompt.map .wrote ++ [.took b, .wrote b]) s t := by
  refine ⟨_, ?_, writeResult_linkR7_onlyCharRead b rest later (s.params.inPrompt.map .wrote ++ [.took b, .wrote b]) s⟩
  rw [exec, execIn, serviceIn, inRead_of_takeByte (s := outWrite (linkR7 s).params.inPrompt (linkR7 s)) h]
  simp [trapReturn, outWrite, State.logPorts]

/-- A byte that is at the head of `IN`, or the first of the schedule, or, when the schedule brings only empty batches,
the first of the refill, is the byte taken: what follows from taking it holds in the three cases. -/
theorem forall_arrivals {P : State → Byte → List Byte → List (List Byte) → Prop}
    (h : ∀ {s b rest later}, takeByte s.inQueue s.arrivals s.refill = some (b, rest, later) → P s b rest later) :
    (∀ s b rest, s.inQueue = b :: rest → P s b rest s.arrivals) ∧
    (∀ (s : State) (n : Nat) (b : Byte) (rest : List Byte) (later : List (List Byte)),
      s.inQueue = [] → s.arrivals = List.replicate n [] ++ (b :: rest) :: later → P s b rest later) ∧
    (∀ (s : State) (n : Nat) (b : Byte) (rest : List Byte) (later : List (List Byte)),
      s.inQueue = [] → (∀ batch ∈ s.arrivals, batch = []) → s.refill = List.replicate n [] ++ (b :: rest) :: later →
      P s b rest later) := by
  refine ⟨fun s b rest hq => h ?_, fun s n b rest later hq ha => h ?_, fun s n b rest later hq ha hr => h ?_⟩
  · rw [hq, takeByte_ready]
  · rw [hq, ha, takeByte_after_empty_batches]
  · rw [hq, hr, takeByte_from_refill ha]

/-- Settles O40: in the three cases the byte is the one taken, and GETC reads it after the link write. -/
theorem getcReadsOneByte : Obligations.GetcReadsOneByte := by
  unfold Obligations.GetcReadsOneByte
  exact forall_arrivals exec_getc_of_takeByte

/-- Settles O41: the prompt leaves `IN` and its schedule, so in the three cases the byte is the one taken. -/
theorem inPromptsReadsAndEchoes : Obligations.InPromptsReadsAndEchoes := by
  unfold Obligations.InPromptsReadsAndEchoes
  exact forall_arrivals exec_inChar_of_takeByte

/-! ### The string services -/

theorem putsChars_eq_lowByteOf : putsChars = lowByteOf := rfl

theorem putspChars_eq_packedBytesOf : putspChars = packedBytesOf := by
  funext w
  by_cases h : highByte w = 0x00
  · exact (if_pos h).trans (congrArg (lowByte w :: ·) (if_pos h).symm)
  · exact (if_neg h).trans (congrArg (lowByte w :: ·) (if_neg h).symm)

theorem exec_puts_next_iff {s t : State} :
    exec .puts s = .next t ↔ ∃ ws, ReadsString lowByteOf (s.x 0) (linkR7 s) ws t := by
  rw [exec, execPuts, putsChars_eq_lowByteOf, serviceString_next_iff, linkR7_x_zero]

theorem exec_putsp_next_iff {s t : State} :
    exec .putsp s = .next t ↔ ∃ ws, ReadsString packedBytesOf (s.x 0) (linkR7 s) ws t := by
  rw [exec, execPutsp, putspChars_eq_packedBytesOf, serviceString_next_iff, linkR7_x_zero]

/-- A string service whose string is terminated and off KBSR writes the string's characters, and nothing else changes
but the link. -/
theorem exec_of_holdsString {i : Instr} {chars : Word → List Byte} {s : State} {ws : List Word}
    (hnext : ∀ {t}, exec i s = .next t ↔ ∃ ws, ReadsString chars (s.x 0) (linkR7 s) ws t)
    (h : HoldsString s (s.x 0) ws) :
    ∃ t, exec i s = .next t ∧ OnlyLinkedAndWrote ((ws.flatMap chars).map .wrote) s t ∧
      t.out = s.out ++ ws.flatMap chars := by
  have hreads : ReadsString chars (s.x 0) (linkR7 s) ws (outWrite (ws.flatMap chars) (linkR7 s)) :=
    readsString_of_holdsString (s := linkR7 s) h
  refine ⟨_, hnext.mpr ⟨ws, hreads⟩, outWrite_linkR7_onlyLinkedAndWrote _ s, ?_⟩
  rw [outWrite_out, linkR7_out]

/-- A string service that completes changes R7, the output, and the keyboard's cells and input only. -/
theorem stringService_frame {i : Instr} {s t : State} (hi : i = .puts ∨ i = .putsp) (h : exec i s = .next t) :
    t.x 7 = s.pc ∧ (∀ r, r ≠ 7 → t.x r = s.x r) ∧ t.pc = s.pc ∧ t.cond = s.cond ∧
      (∀ a, a ≠ 0xFE00 → a ≠ 0xFE02 → t.cell a = s.cell a) ∧ SameControl s t := by
  obtain ⟨hwf, htrap, hgetc, hin, hhalt, hvect⟩ : i.WellFormed ∧ isTrap i = true ∧ i ≠ .getc ∧ i ≠ .inChar ∧
      i ≠ .halt ∧ ∀ vect, i ≠ .trap vect := by
    obtain rfl | rfl := hi <;> exact ⟨rfl, rfl, nofun, nofun, nofun, nofun⟩
  obtain ⟨hlink, hpc, hregs, hflags, hcells, -, hrun, -, hparams⟩ := trapFrame i s t hwf htrap h
  obtain ⟨hx0, hcond⟩ := hflags hgetc hin
  obtain ⟨hsame, hcause⟩ := (hrun.resolve_left hhalt).resolve_left fun ⟨vect, hv⟩ => hvect vect hv
  refine ⟨hlink, fun r h7 => ?_, hpc, hcond, hcells, hsame, hcause, hparams⟩
  by_cases h0 : r = 0
  · rw [h0, hx0]
  · exact hregs r h0 h7

/-- Settles O44: PUTS completes exactly with the reads of a terminated string. -/
theorem putsWritesTheString : Obligations.PutsWritesTheString := by
  unfold Obligations.PutsWritesTheString
  refine ⟨fun s ws => exec_of_holdsString exec_puts_next_iff, fun s ws t h => ?_, fun s t => exec_puts_next_iff.mp⟩
  have hnext := exec_puts_next_iff.mpr ⟨ws, h⟩
  exact ⟨hnext, h.out, stringService_frame (.inl rfl) hnext⟩

/-- Settles O45: PUTSP completes exactly with the reads of a terminated string. -/
theorem putspWritesThePackedString : Obligations.PutspWritesThePackedString := by
  unfold Obligations.PutspWritesThePackedString
  refine ⟨fun s ws => exec_of_holdsString exec_putsp_next_iff, fun s ws t h => ?_, fun s t => exec_putsp_next_iff.mp⟩
  have hnext := exec_putsp_next_iff.mpr ⟨ws, h⟩
  exact ⟨hnext, h.out, stringService_frame (.inr rfl) hnext⟩

end Sys2Proof.Machine
end

section
/-! SUPPORT. Proof of the statement of 45_reserved.md: the fatal opcodes RTI and RES (R170, R171), as their words and what
they leave unchanged. -/

namespace Sys2Proof.Machine

/-- An instruction that ends with `raise Fatal(IllegalOpcode)` aborts with code 1, and nothing else changes
(60_exceptions.md R181). -/
theorem illegalOpcode_onlyAborted_of_exec {i : Instr} {s : State}
    (h : exec i s = .next (raiseFatal .illegalOpcode s)) :
    ∃ t, exec i s = .next t ∧ OnlyAborted .illegalOpcode s t ∧ t.abortCode = 1 :=
  ⟨_, h, raiseFatal_onlyAborted .illegalOpcode s, rfl⟩

/-- Settles O52: bits 11:0 of the words of RTI and RES are ignored, and both meanings are one `raise Fatal`. -/
theorem fatalOpcodesAbort : Obligations.FatalOpcodesAbort := by
  unfold Obligations.FatalOpcodesAbort
  refine ⟨fun ign => ⟨?_, ?_⟩, fun s => ?_, fun s => ?_⟩
  · exact decode_of_kept_eq rfl (append_low_and_eq 0b1000#4 ign 0#12 (mask := ~~~0x0FFF) (by decide))
  · exact decode_of_kept_eq rfl (append_low_and_eq 0b1101#4 ign 0#12 (mask := ~~~0x0FFF) (by decide))
  · exact illegalOpcode_onlyAborted_of_exec rfl
  · exact illegalOpcode_onlyAborted_of_exec rfl

end Sys2Proof.Machine
end

section
/-! SUPPORT. Proofs of the statements of 60_exceptions.md: the fatal errors (R182, R183) and the steps that never
complete, the wait for input (R190 (a)) and the string without an end (R190 (b)). -/

namespace Sys2Proof.Machine

/-! ### Fatal errors -/

@[simp] theorem fetch_cond (s : State) : (fetch s).2.cond = s.cond := by simp [fetch]
@[simp] theorem fetch_x (s : State) (r : Reg) : (fetch s).2.x r = s.x r := by simp [fetch]

/-- Settles O10: of the ways `RUN` can change only two lead to ABORTED, each a `raise Fatal` after the fetch. -/
theorem abortedOnlyByFatalInstructions : Obligations.AbortedOnlyByFatalInstructions := by
  unfold Obligations.AbortedOnlyByFatalInstructions
  intro s t h haborted
  obtain ⟨hrun, hexec⟩ := step_cases h
  obtain ⟨hsame, -⟩ | ⟨-, rfl⟩ | ⟨hi, rfl⟩ | ⟨vect, hvect, hi, hpolicy, rfl⟩ := exec_run_cases hexec
  · rw [hsame, fetch_run, hrun] at haborted
    cases haborted
  · cases haborted
  · obtain ⟨-, hcause, hregs, hpc, hcond, hcells, hports, hparams⟩ :=
      raiseFatal_onlyAborted .illegalOpcode (fetch s).2
    exact ⟨hpc, hcond.trans (fetch_cond s), hcells, hports, hparams.trans (fetch_params s),
      .inl ⟨hcause, rfl, hi, fun r => (hregs r).trans (fetch_x s r)⟩⟩
  · obtain ⟨-, hcause, hregs, hpc, hcond, hcells, hports, hparams⟩ :=
      raiseFatal_onlyAborted .unknownTrapVector (linkR7 (fetch s).2)
    refine ⟨hpc, hcond.trans (fetch_cond s), hcells, hports, hparams.trans (fetch_params s),
      .inr ⟨hcause, rfl, fetch_params s ▸ hpolicy, ⟨vect, hvect, hi⟩, ?_, fun r hr => ?_⟩⟩
    · rw [hregs, linkR7_x_seven, fetch_pc]
    · rw [hregs, linkR7_x, if_neg hr.symm, fetch_x]

/-! ### Waits that never end -/

/-- `InRead` waits for ever, the schedule used up, when `IN` is empty and so is every batch to come. -/
theorem inRead_of_no_input {s : State} (hq : s.inQueue = []) (ha : ∀ batch ∈ s.arrivals, batch = [])
    (hr : ∀ batch ∈ s.refill, batch = []) : inRead s = .error { s with arrivals := [] } := by
  rw [inRead, hq, takeByte_none ha hr]

/-- Settles O42: the wait begins after the link write and, for IN, the prompt. -/
theorem inputServicesHoldWithoutInput : Obligations.InputServicesHoldWithoutInput := by
  unfold Obligations.InputServicesHoldWithoutInput
  intro s hq ha hr
  refine ⟨⟨_, ?_, outWrite_linkR7_onlyLinkedAndWrote [] { s with arrivals := [] }⟩,
    _, ?_, outWrite_linkR7_onlyLinkedAndWrote s.params.inPrompt { s with arrivals := [] }, ?_⟩
  · rw [exec, execGetc, serviceGetc, inRead_of_no_input (s := linkR7 s) hq ha hr, outWrite_nil]
    rfl
  · rw [exec, execIn, serviceIn,
      inRead_of_no_input (s := outWrite (linkR7 s).params.inPrompt (linkR7 s)) hq ha hr]
    rfl
  · rw [outWrite_out, linkR7_out]
    rfl

/-! ### Strings that never end -/

/-- Batches with a byte each do not run dry. -/
theorem not_runsDry_of_nonempty {n : Nat} {batches : List (List Byte)} (h : ∀ batch ∈ batches, batch ≠ []) :
    ¬ RunsDry n batches := by
  induction batches generalizing n with
  | nil => exact id
  | cons batch later ih =>
    obtain ⟨hbatch, hlater⟩ := List.forall_mem_cons.mp h
    have hpos := List.length_pos_iff.mpr hbatch
    rintro (hnone | hdry)
    · omega
    · exact ih hlater hdry

/-- Batches with a byte each bring at least as many bytes as there are batches. -/
theorem length_le_flatten_length {batches : List (List Byte)} (h : ∀ batch ∈ batches, batch ≠ []) :
    batches.length ≤ batches.flatten.length := by
  rw [List.length_flatten, ← List.length_map (f := List.length)]
  refine List.length_le_sum_of_one_le _ fun n hn => ?_
  obtain ⟨batch, hbatch, rfl⟩ := List.mem_map.mp hn
  exact List.length_pos_iff.mpr (h batch hbatch)

/-- An input of batches with bytes, none of them 0, that never runs out is sustained. -/
theorem sustained_of_endless_input {s : State} (ha : ∀ batch ∈ s.arrivals, batch ≠ [] ∧ (0 : Byte) ∉ batch)
    (hr : ∀ batch ∈ s.refill, batch ≠ [] ∧ (0 : Byte) ∉ batch) (hne : s.refill ≠ []) (hq : (0 : Byte) ∉ s.inQueue) :
    Sustained s where
  refill := hne
  enough := length_le_flatten_length fun batch hb => (hr batch hb).1
  not_dry := not_runsDry_of_nonempty fun batch hb => by
    obtain hb | hb := List.mem_append.mp hb
    · exact (ha batch hb).1
    · exact (hr batch hb).1
  no_zero h := by
    simp only [List.mem_append, List.mem_flatten] at h
    obtain (h | ⟨batch, hb, h⟩) | ⟨batch, hb, h⟩ := h
    · exact hq h
    · exact (ha batch hb).2 h
    · exact (hr batch hb).2 h

/-- A string service whose loop has not ended within the bound stops where the loop stands. -/
theorem serviceString_of_not_ended {chars : Word → List Byte} {s u : State} {a : Word}
    (h : putString chars (stringFuel s) (s.x 0) s = .error (a, u)) :
    serviceString chars s = .fault (.stringNeverEnds a u) := by
  rw [serviceString, h]

/-- Settles O47: the link write leaves cells and input, and a sustained input over cells that are not zero keeps the loop
from ending after any number of reads. -/
theorem stringServicesDivergeOnEndlessInput : Obligations.StringServicesDivergeOnEndlessInput := by
  unfold Obligations.StringServicesDivergeOnEndlessInput
  intro s hcells ha hr hne hq
  have hdiverges (chars : Word → List Byte) :
      ∃ a u, serviceString chars (linkR7 s) = .fault (.stringNeverEnds a u) := by
    obtain ⟨⟨a, u⟩, hloop⟩ := putString_never_ends (chars := chars) (a := (linkR7 s).x 0) (s := linkR7 s)
      (stringFuel (linkR7 s)) (fun c hc _ => hcells c hc) (fun _ => hcells Config.kbdr (by decide))
      (sustained_of_endless_input ha hr hne hq)
    exact ⟨a, u, serviceString_of_not_ended hloop⟩
  exact ⟨hdiverges putsChars, hdiverges putspChars⟩

/-- When a string service stops, its loop never ends, and the stop holds the loop's place. -/
theorem serviceString_stop_is_exact {chars : Word → List Byte} {s u : State} {a : Word}
    (h : serviceString chars s = .fault (.stringNeverEnds a u)) :
    (∀ n, ∃ p, putString chars n (s.x 0) s = .error p) ∧
      ∀ n, putString chars (stringFuel s + n) (s.x 0) s = putString chars n a u := by
  obtain ⟨_, _, hplace, hloop⟩ := serviceString_fault h
  cases hplace
  have hnot (t : State) : putString chars (stringFuel s) (s.x 0) s ≠ .ok t := by
    rw [hloop]
    nofun
  exact ⟨putString_never_ends_of_not_ended hnot, putString_resumes hloop⟩

/-- Settles O48: R0 is read after the link write, which leaves it. -/
theorem stringStopMeansNeverEnds : Obligations.StringStopMeansNeverEnds := by
  unfold Obligations.StringStopMeansNeverEnds
  intro s a u
  rw [← linkR7_x_zero s]
  exact ⟨serviceString_stop_is_exact, serviceString_stop_is_exact⟩

end Sys2Proof.Machine
end

section
/-! SUPPORT. Proofs of the statements of 70_reset_and_hazards.md: what a launch leaves (R210, R212) and what one step
does (R215). -/

namespace Sys2Proof.Machine

/-! ### Launch -/

/-- A file that is read as an image has a payload inside the address space (20_memory.md R73). -/
theorem parseImage_ok_fits {file : List Byte} {img : Image} (h : parseImage file = .ok img) :
    img.origin.toNat + img.words.length ≤ Config.memSize := by
  rw [parseImage] at h
  split at h
  · cases h
  · split at h
    · cases h
    · cases h
    · split at h
      · cases h
      · next hfits =>
        cases h
        exact Nat.le_of_not_lt hfits

/-- The load of a file's image keeps the canonical form (20_memory.md R71). -/
theorem loadImage_wf {file : List Byte} {img : Image} (h : parseImage file = .ok img) {m : Memory}
    (hm : Memory.wf m) : Memory.wf (loadImage img m) :=
  loadWords_wf img.words hm (parseImage_ok_fits h)

/-- Loads that are not refused keep the canonical form (20_memory.md R72). -/
theorem loadImages_wf {files : List (List Byte)} {m m' : Memory} (hm : Memory.wf m)
    (h : loadImages files m = .ok m') : Memory.wf m' := by
  induction files generalizing m with
  | nil =>
    cases h
    exact hm
  | cons file files ih =>
    cases hparse : parseImage file with
    | error why => cases (loadImages_cons_error hparse files m).symm.trans h
    | ok img =>
      rw [loadImages_cons_ok hparse] at h
      exact ih (loadImage_wf hparse hm) h

/-- A launch that answers a state answers reset with the loaded memory (70_reset_and_hazards.md R212). -/
theorem launch_cases {p : Params} {files : List (List Byte)} {inQueue : List Byte} {arrivals refill : List (List Byte)}
    {t : State} (h : launch p files inQueue arrivals refill = .next t) :
    ∃ m, loadImages files p.initMem = .ok m ∧ t = { State.resetWith p inQueue arrivals refill with mem := m } := by
  cases hload : loadImages files p.initMem with
  | error why => cases (launch_of_error hload inQueue arrivals refill).symm.trans h
  | ok m =>
    cases (launch_of_ok hload inQueue arrivals refill).symm.trans h
    exact ⟨m, rfl, rfl⟩

/-- Reset with a canonical memory is legal: it is RUNNING and has no cause (10_state.md R45). -/
theorem resetWith_mem_legal {m : Memory} (hm : Memory.wf m) (p : Params) (inQueue : List Byte)
    (arrivals refill : List (List Byte)) : State.Legal { State.resetWith p inQueue arrivals refill with mem := m } :=
  ⟨hm, ⟨nofun, fun hcause => absurd rfl hcause⟩⟩

/-- Settles O60: the launched state is reset with the loaded memory, and the loads keep memory canonical. -/
theorem launchIsLegal : Obligations.LaunchIsLegal := by
  unfold Obligations.LaunchIsLegal
  intro p files inQueue arrivals refill t hm h
  obtain ⟨m, hload, rfl⟩ := launch_cases h
  exact ⟨resetWith_mem_legal (loadImages_wf hm hload) p inQueue arrivals refill, rfl, rfl, rfl, rfl, rfl⟩

/-! ### The step -/

/-- Settles O6: the fetch is a read at `pc` and the advance; away from KBSR that read is the cell's and changes nothing
(20_memory.md R53). -/
theorem stepRunsTheDecodedInstruction : Obligations.StepRunsTheDecodedInstruction := by
  unfold Obligations.StepRunsTheDecodedInstruction
  intro s i hrun
  refine ⟨?_, fun hpc => ?_⟩
  · rintro rfl
    exact step_of_running hrun
  · rintro rfl
    exact step_of_plain_fetch hrun hpc

end Sys2Proof.Machine
end
